-- ==== Sys2Proof/Word.lean ====
section
/-! DEFINITION. The word and byte types of RC6_core and the fixed groups of them that the spec names. -/

namespace Sys2Proof

/-- A 32-bit word: unsigned, arithmetic modulo 2^32 (spec/00_scope.md R9, R10). -/
abbrev Word := BitVec 32

/-- A byte, the document's data unit (spec/20_memory.md R52). -/
abbrev Byte := BitVec 8

/-- A 16-byte string: a key or a block, byte 0 first (spec/00_scope.md R13). -/
abbrev Block := Vector Byte 16

/-- Four 32-bit registers of one group: KEY0..KEY3, DIN0..DIN3 or DOUT0..DOUT3 (spec/10_state.md R22). -/
abbrev Quad := Vector Word 4

/-- The round-key file S[0..43] (spec/10_state.md R32). -/
abbrev RoundKeys := Vector Word 44

end Sys2Proof
end

