-- ==== Sys2Proof/Syntax.lean ====
section
/-! DEFINITION. The commands of RC6_core: one constructor per row of spec/opcode_table.json. -/

namespace Sys2Proof

/-- A legal command (spec/30_encoding.md R73). A command has no register or immediate operand; its one field is LEN
(R70, R71, R72). NOP ignores LEN, but LEN is part of the word that CTRL reads back (spec/10_state.md R23). -/
inductive Instr where
  /-- NOP (spec/40_control.md R95) -/
  | nop (len : BitVec 8)
  /-- KEY_EXPAND (spec/41_key_schedule.md R110) -/
  | keyExpand (len : BitVec 8)
  /-- ENCRYPT (spec/42_block_cipher.md R140) -/
  | encrypt (len : BitVec 8)
  /-- DECRYPT (spec/42_block_cipher.md R150) -/
  | decrypt (len : BitVec 8)
deriving DecidableEq, Repr

/-- The LEN field of a command (spec/30_encoding.md R71). -/
def Instr.len : Instr → BitVec 8
  | .nop n => n
  | .keyExpand n => n
  | .encrypt n => n
  | .decrypt n => n

/-- The four commands without their LEN field. -/
inductive CommandKind where
  | nop
  | keyExpand
  | encrypt
  | decrypt
deriving DecidableEq, Repr

/-- Which command it is. -/
def Instr.kind : Instr → CommandKind
  | .nop _ => .nop
  | .keyExpand _ => .keyExpand
  | .encrypt _ => .encrypt
  | .decrypt _ => .decrypt

/-- A command as a host states it, with the byte length of the operand it presents, which may be any number
(spec/30_encoding.md R71, R78). -/
structure Request where
  kind : CommandKind
  operandBytes : Nat
deriving DecidableEq, Repr

end Sys2Proof
end

