-- ==== Sys2Proof/WellFormed.lean ====
section
/-! DEFINITION. Which requests of a host are commands: LEN must be able to state the length. -/

namespace Sys2Proof

/-- Every command word field is as wide as its type, so every Instr is well formed: LEN takes all 2^8 values
(spec/30_encoding.md R71, R73: "LEN is not part of the match"). -/
def Instr.wellFormed : Instr → Bool
  | .nop n => decide (n.toNat ≤ 255)
  | .keyExpand n => decide (n.toNat ≤ 255)
  | .encrypt n => decide (n.toNat ≤ 255)
  | .decrypt n => decide (n.toNat ≤ 255)

/-- A host whose buffer is longer than 255 bytes cannot state that length in LEN and must not issue the command
(spec/30_encoding.md R71). NOP ignores LEN, but it too has only eight bits for it. -/
def Request.wellFormed (r : Request) : Bool :=
  decide (r.operandBytes ≤ 255)

/-- The command a request stands for, refused where LEN cannot state its length. -/
def Request.command? (r : Request) : Option Instr :=
  if r.wellFormed then
    let n := BitVec.ofNat 8 r.operandBytes
    match r.kind with
    | .nop => some (.nop n)
    | .keyExpand => some (.keyExpand n)
    | .encrypt => some (.encrypt n)
    | .decrypt => some (.decrypt n)
  else none

end Sys2Proof
end

