-- ==== Sys2Proof/Decode.lean ====
section
/-! DEFINITION. Decoding of the CTRL command word, total over all 2^32 words (spec/30_encoding.md R70, R74), and the
encoder, written from the same table (R73). -/

namespace Sys2Proof

/-- CMD, bits 3:0 (spec/30_encoding.md R70). -/
def cmdField (v : Word) : BitVec 4 := v.extractLsb' 0 4

/-- RSV0, bits 7:4, must be 0 (spec/30_encoding.md R70). -/
def rsv0Field (v : Word) : BitVec 4 := v.extractLsb' 4 4

/-- LEN, bits 15:8 (spec/30_encoding.md R70, R71). -/
def lenField (v : Word) : BitVec 8 := v.extractLsb' 8 8

/-- RSV1, bits 31:16, must be 0 (spec/30_encoding.md R70). -/
def rsv1Field (v : Word) : BitVec 16 := v.extractLsb' 16 16

/-- Why a word is ILLEGAL (spec/30_encoding.md R75). Both reasons raise the same error, ILLEGAL_CMD. -/
inductive IllegalReason where
  /-- a 1 bit in RSV0 or RSV1 -/
  | reservedBits
  /-- CMD in 0x4..0xF -/
  | reservedCommand
deriving DecidableEq, Repr

/-- What a word decodes to. -/
inductive Decoded where
  | command (i : Instr)
  | illegal (why : IllegalReason)
deriving DecidableEq, Repr

/-- The command of a decoded word, if it is one. -/
def Decoded.command? : Decoded → Option Instr
  | .command i => some i
  | .illegal _ => none

/-- decode(v) (spec/30_encoding.md R74). -/
def decode (v : Word) : Decoded :=
  if rsv0Field v ≠ 0 ∨ rsv1Field v ≠ 0 then .illegal .reservedBits
  else if cmdField v = 0x0 then .command (.nop (lenField v))
  else if cmdField v = 0x1 then .command (.keyExpand (lenField v))
  else if cmdField v = 0x2 then .command (.encrypt (lenField v))
  else if cmdField v = 0x3 then .command (.decrypt (lenField v))
  else .illegal .reservedCommand

/-- A CTRL word from its CMD and LEN, the reserved fields zero (spec/30_encoding.md R70). -/
def commandWord (len : BitVec 8) (cmd : BitVec 4) : Word :=
  (0 : BitVec 16) ++ len ++ (0 : BitVec 4) ++ cmd

/-- The CMD value of each command (spec/30_encoding.md R73). -/
def Instr.cmd : Instr → BitVec 4
  | .nop _ => 0x0
  | .keyExpand _ => 0x1
  | .encrypt _ => 0x2
  | .decrypt _ => 0x3

/-- The command word of a command (spec/30_encoding.md R70, R73). -/
def encode (i : Instr) : Word := commandWord i.len i.cmd

/-- A command word as spec/opcode_table.json numbers its bits: one 32-bit bus word, bit 0 the least significant, the bits
above `nbits` zero. The command reaches the core as the data of one 32-bit bus write (R70), so no byte order enters. -/
def tableWord (nbits w : Nat) : Word := BitVec.ofNat 32 (w % 2 ^ nbits)

/-- The instruction the decoder reads from a word of the opcode table. -/
def decodeTableWord (nbits w : Nat) : Option Instr := (decode (tableWord nbits w)).command?

end Sys2Proof
end

