-- ==== Sys2Proof/Config.lean ====
section
/-! DEFINITION. What the spec leaves to the configuration (R7) and the free values of the model: constants without a body,
so that no proof can see their values. -/

namespace Sys2Proof

/-- WORD_ORDER: how four bytes of a key or block form one word (spec/00_scope.md R7, spec/20_memory.md R54). -/
inductive WordOrder where
  /-- byte 4k is the least significant byte of word k: the default -/
  | le
  /-- byte 4k is the most significant byte of word k -/
  | be
deriving DecidableEq, Repr

/-- The parameters a model takes as arguments (spec/00_scope.md R7). LAT_KEY and LAT_BLK are not here: the number of
events between acceptance and completion is whatever the event list holds (log 3). -/
structure Params where
  /-- BASE in units of the window's size: BASE is a multiple of 0x40 (spec/20_memory.md R51) -/
  baseIndex : Nat
  /-- WORD_ORDER (spec/20_memory.md R54) -/
  wordOrder : WordOrder
deriving DecidableEq, Repr

/-- What the n-th read of a DOUT register while BUSY = 1 returns: any value, with no law between two draws
(spec/10_state.md R31, R37, spec/20_memory.md R56; log 5). -/
opaque Config.busyDout : Nat → Word

/-- RD_IN(IV, i): the Random-Delta keystream input, which no source defines; it depends on the IV and the index alone
(spec/43_host_usage.md R166; log 9). -/
opaque Config.randomDelta : Block → Nat → Block

/-- PCBC_INIT: the pair (P_{-1}, C_{-1}) of PCBC, computed from the IV, which no source defines
(spec/43_host_usage.md R167; log 9). -/
opaque Config.pcbcInit : Block → Block × Block

end Sys2Proof
end

