-- ==== Sys2Proof/Machine/State.lean ====
section
/-! DEFINITION. The machine's state as plain data, its value at reset, and the reasons a step can stop. -/

namespace Sys2Proof.Machine

/-- The sequencer phase (spec/10_state.md R36). -/
inductive Phase where
  /-- no command in flight -/
  | idle
  /-- a KEY_EXPAND in flight -/
  | keyx
  /-- an ENCRYPT in flight -/
  | enc
  /-- a DECRYPT in flight -/
  | dec
deriving DecidableEq, Repr

/-- The fields of STATUS (spec/10_state.md R24). Bits 31:8 read as zero and need no storage. -/
structure Status where
  /-- bit 0: a command is in flight (R25) -/
  busy : Bool
  /-- bit 1: the last accepted command completed without error (R26) -/
  done : Bool
  /-- bit 2: the last accepted command failed, or a CTRL write was refused while busy (R26) -/
  err : Bool
  /-- bit 3: the round-key file holds the schedule of a key (R28) -/
  keyValid : Bool
  /-- bits 7:4: the error code (spec/60_exceptions.md R180) -/
  errcode : BitVec 4
deriving DecidableEq, Repr

/-- The block working words A, B, C, D and the round temporaries t and u (spec/10_state.md R33). -/
structure BlockWork where
  a : Word
  b : Word
  c : Word
  d : Word
  t : Word
  u : Word
deriving DecidableEq, Repr

/-- The key-schedule working state L[0..3], KA, KB, i, j (spec/10_state.md R34). -/
structure KeyWork where
  l : Quad
  ka : Word
  kb : Word
  i : Fin 44
  j : Fin 4
deriving DecidableEq, Repr

/-- The shape of one bus transfer. Only `single 4` is legal (spec/20_memory.md R55). -/
inductive Transfer where
  /-- one beat of so many bytes -/
  | single (bytes : Nat)
  /-- a burst of so many beats of so many bytes -/
  | burst (beats bytes : Nat)
deriving DecidableEq, Repr

/-- One host bus access at a host address: MemRead or MemWrite (spec/00_scope.md R12, spec/20_memory.md R56, R57). The
data of a write of another shape than one word is never looked at, since such an access is refused (R58). -/
inductive Access where
  | read (addr : Nat) (shape : Transfer)
  | write (addr : Nat) (shape : Transfer) (data : Word)
deriving DecidableEq, Repr

/-- One step of one agent (spec/00_scope.md R8). -/
inductive Event where
  /-- HOST: the bus master of this number makes one access -/
  | host (master : Nat) (access : Access)
  /-- SEQ: the completion step, enabled exactly when a command is in flight (spec/40_control.md R97) -/
  | seqComplete
  /-- RST: reset (spec/70_reset_and_hazards.md R200) -/
  | reset
deriving DecidableEq, Repr

/-- What the bus answers to an access. -/
inductive Response where
  /-- the word a legal read returns (spec/20_memory.md R56) -/
  | data (v : Word)
  /-- a legal write was taken, be it ignored or refused by the core: no bus error (spec/20_memory.md R57) -/
  | written
  /-- BusError(addr): the error response, a fault of the issuing host (spec/20_memory.md R58) -/
  | busError (addr : Nat)
deriving DecidableEq, Repr

/-- An answer and the bus master that got it. -/
structure Reply where
  master : Nat
  response : Response
deriving DecidableEq, Repr

/-- The state of one RC6_core (spec/10_state.md R20) and, in the last four fields, the model's own data: the fixed
configuration, the steps still to come, the answers given so far and the count of free values drawn. -/
structure State where
  /-- CTRL: the last accepted command word (R23) -/
  ctrl : Word
  /-- STATUS (R24) -/
  status : Status
  /-- KEY0..KEY3 (R29) -/
  key : Quad
  /-- DIN0..DIN3 (R30) -/
  din : Quad
  /-- DOUT0..DOUT3 (R31) -/
  dout : Quad
  /-- the round-key file S[0..43] (R32) -/
  roundKeys : RoundKeys
  /-- the sequencer phase (R36) -/
  phase : Phase
  /-- the key latch KL[0..15] (R35) -/
  kl : Block
  /-- the block latch XL[0..15] (R35) -/
  xl : Block
  /-- A, B, C, D, t, u (R33) -/
  work : BlockWork
  /-- L, KA, KB, i, j (R34) -/
  ks : KeyWork
  /-- BASE and WORD_ORDER (spec/00_scope.md R7); no step changes it (log 2) -/
  params : Params
  /-- the agents' next steps, in their total order (spec/20_memory.md R60; log 3) -/
  events : List Event
  /-- the answers the bus has given, newest first (log 4) -/
  replies : List Reply
  /-- how many free DOUT values have been drawn (spec/10_state.md R37; log 5) -/
  draws : Nat
deriving DecidableEq, Repr

/-- The value the model gives working words that hold "no value" (spec/10_state.md R38; DESIGN CHOICE zero, log 1). -/
def BlockWork.noValue : BlockWork := { a := 0, b := 0, c := 0, d := 0, t := 0, u := 0 }

/-- The value the model gives key-schedule working state that holds "no value" (R38; DESIGN CHOICE zero, log 1). -/
def KeyWork.noValue : KeyWork := { l := #v[0, 0, 0, 0], ka := 0, kb := 0, i := 0, j := 0 }

/-- The value the model gives a latch that holds "no value" (R38; DESIGN CHOICE zero, log 1). -/
def noValueLatch : Block := #v[0, 0, 0, 0, 0, 0, 0, 0, 0, 0, 0, 0, 0, 0, 0, 0]

/-- The value the model gives a round-key file that holds "no value" (R38; DESIGN CHOICE zero, log 1). -/
def noValueKeys : RoundKeys := Vector.replicate 44 0

/-- STATUS after reset: 0x00000000 (spec/10_state.md R38). -/
def Status.reset : Status :=
  { busy := false, done := false, err := false, keyValid := false, errcode := 0 }

/-- The configuration of State.reset: the spec's default word order; BASE is OPEN, and 0 here is a DESIGN CHOICE that no
statement rests on (log 2). -/
def defaultParams : Params := { baseIndex := 0, wordOrder := .le }

/-- The machine right after reset (spec/10_state.md R38, spec/70_reset_and_hazards.md R200): the core executes nothing
(R203), so no event is pending. -/
def State.reset : State where
  ctrl := 0
  status := Status.reset
  key := #v[0, 0, 0, 0]
  din := #v[0, 0, 0, 0]
  dout := #v[0, 0, 0, 0]
  roundKeys := noValueKeys
  phase := .idle
  kl := noValueLatch
  xl := noValueLatch
  work := BlockWork.noValue
  ks := KeyWork.noValue
  params := defaultParams
  events := []
  replies := []
  draws := 0

/-- Why a step can stop with a fault. -/
inductive Fault where
  /-- Raised by the bus access of a host (`Machine.hostAccess`) whose address lies outside the core's window: "what they
  reach is the platform's" (spec/20_memory.md R51). SAFE: the core itself does nothing on such an access, and the model
  stops instead of inventing the platform's answer (log 6). -/
  | outsideWindow (addr : Nat)
deriving DecidableEq, Repr

/-- Why a step can be refused. -/
inductive Refusal where
  /-- Raised by an arm of exec that has no meaning yet. SAFE: nothing is claimed of that instruction. No arm of this
  model raises it: every command has its meaning. -/
  | notModelled (mnemonic : String)
deriving DecidableEq, Repr

/-! The named updates of State: every operation changes the state through these. -/

def State.withCtrl (s : State) (v : Word) : State := { s with ctrl := v }
def State.withStatus (s : State) (v : Status) : State := { s with status := v }
def State.withKey (s : State) (v : Quad) : State := { s with key := v }
def State.withDin (s : State) (v : Quad) : State := { s with din := v }
def State.withDout (s : State) (v : Quad) : State := { s with dout := v }
def State.withRoundKeys (s : State) (v : RoundKeys) : State := { s with roundKeys := v }
def State.withPhase (s : State) (v : Phase) : State := { s with phase := v }
def State.withKl (s : State) (v : Block) : State := { s with kl := v }
def State.withXl (s : State) (v : Block) : State := { s with xl := v }
def State.withWork (s : State) (v : BlockWork) : State := { s with work := v }
def State.withKs (s : State) (v : KeyWork) : State := { s with ks := v }
def State.withEvents (s : State) (v : List Event) : State := { s with events := v }
def State.withReplies (s : State) (v : List Reply) : State := { s with replies := v }
def State.withDraws (s : State) (v : Nat) : State := { s with draws := v }

end Sys2Proof.Machine
end

