-- ==== Sys2Proof/Machine/Flags.lean ====
section
/-! DEFINITION. STATUS: its word, its error codes and every change a rule makes to its fields. -/

namespace Sys2Proof.Machine

/-- The error codes (spec/60_exceptions.md R180). Codes 6 to 15 are reserved and have no name here. -/
inductive ErrCode where
  /-- no error since the last accepted command -/
  | none
  /-- ENCRYPT or DECRYPT with LEN ≠ 16 -/
  | invalidInput
  /-- KEY_EXPAND with LEN ≠ 16 -/
  | configError
  /-- ENCRYPT or DECRYPT with LEN = 16 while KEY_VALID = 0 -/
  | noKey
  /-- a command word that decodes to ILLEGAL -/
  | illegalCmd
  /-- a CTRL write while BUSY = 1 -/
  | busyViolation
deriving DecidableEq, Repr

/-- The value of ERRCODE for each error (spec/60_exceptions.md R180). -/
def ErrCode.bits : ErrCode → BitVec 4
  | .none => 0
  | .invalidInput => 1
  | .configError => 2
  | .noKey => 3
  | .illegalCmd => 4
  | .busyViolation => 5

/-- The error a code names; none for the reserved codes 6 to 15 (spec/60_exceptions.md R180). -/
def ErrCode.ofBits (c : BitVec 4) : Option ErrCode :=
  match c.toNat with
  | 0 => some .none
  | 1 => some .invalidInput
  | 2 => some .configError
  | 3 => some .noKey
  | 4 => some .illegalCmd
  | 5 => some .busyViolation
  | _ => none

/-- STATUS as a host reads it (spec/10_state.md R24): bits 31:8 zero, ERRCODE in 7:4, KEY_VALID 3, ERR 2, DONE 1, BUSY 0. -/
def Status.word (st : Status) : Word :=
  (0 : BitVec 24) ++ st.errcode ++ BitVec.ofBool st.keyValid ++ BitVec.ofBool st.err ++ BitVec.ofBool st.done
    ++ BitVec.ofBool st.busy

/-- DONE, ERR and ERRCODE are cleared when a command is accepted (spec/10_state.md R26, spec/40_control.md R90). -/
def Status.cleared (st : Status) : Status :=
  { st with done := false, err := false, errcode := ErrCode.none.bits }

/-- ERR set with a code (spec/60_exceptions.md R182, spec/40_control.md R96). -/
def Status.failed (st : Status) (code : ErrCode) : Status :=
  { st with err := true, errcode := code.bits }

/-- NOP sets DONE (spec/40_control.md R95). -/
def Status.acknowledged (st : Status) : Status := { st with done := true }

/-- A command that passes its checks sets BUSY (spec/10_state.md R25). -/
def Status.started (st : Status) : Status := { st with busy := true }

/-- Completion clears BUSY and sets DONE; ERR and ERRCODE are not written (spec/40_control.md R97). -/
def Status.completed (st : Status) : Status := { st with busy := false, done := true }

/-- KEY_VALID set by the completion of KEY_EXPAND (spec/10_state.md R28, spec/41_key_schedule.md R116). -/
def Status.keyReady (st : Status) : Status := { st with keyValid := true }

/-- KEY_VALID cleared by a KEY_EXPAND, accepted or failed (spec/10_state.md R28, spec/41_key_schedule.md R111, R112). -/
def Status.keyLost (st : Status) : Status := { st with keyValid := false }

end Sys2Proof.Machine
end

