-- ==== Sys2Proof/Machine/Operands.lean ====
section
/-! DEFINITION. The operand forms: how the bytes of a key or block lie in registers (R53), and how they form words (R54). -/

namespace Sys2Proof.Machine

/-- Byte `n` (0 to 3) of a register, bits [8n+7 : 8n] (spec/20_memory.md R53). -/
def registerByte (w : Word) (n : Nat) : Byte := w.extractLsb' (8 * n) 8

/-- Four bytes in one register, the first in bits 7:0 (spec/20_memory.md R53). -/
def registerOfBytes (b0 b1 b2 b3 : Byte) : Word := b3 ++ b2 ++ b1 ++ b0

/-- The 16 bytes that KEY0..KEY3 or DIN0..DIN3 hold: byte k is bits [8(k mod 4)+7 : 8(k mod 4)] of register k div 4
(spec/20_memory.md R53, spec/10_state.md R29, R30). -/
def latchBytes (q : Quad) : Block :=
  #v[registerByte q[0] 0, registerByte q[0] 1, registerByte q[0] 2, registerByte q[0] 3,
     registerByte q[1] 0, registerByte q[1] 1, registerByte q[1] 2, registerByte q[1] 3,
     registerByte q[2] 0, registerByte q[2] 1, registerByte q[2] 2, registerByte q[2] 3,
     registerByte q[3] 0, registerByte q[3] 1, registerByte q[3] 2, registerByte q[3] 3]

/-- pack(Y): byte k of Y in bits [8(k mod 4)+7 : 8(k mod 4)] of DOUT(k div 4) (spec/40_control.md R97). -/
def packBytes (y : Block) : Quad :=
  #v[registerOfBytes y[0] y[1] y[2] y[3], registerOfBytes y[4] y[5] y[6] y[7],
     registerOfBytes y[8] y[9] y[10] y[11], registerOfBytes y[12] y[13] y[14] y[15]]

/-- A word from four bytes of a byte string, in their order in the string (spec/20_memory.md R54). -/
def wordOfBytes (o : WordOrder) (b0 b1 b2 b3 : Byte) : Word :=
  match o with
  | .le => b3 ++ b2 ++ b1 ++ b0
  | .be => b0 ++ b1 ++ b2 ++ b3

/-- load_word(b, k) for k = 0 .. 3 (spec/20_memory.md R54). -/
def loadWord (o : WordOrder) (b : Block) (k : Fin 4) : Word :=
  wordOfBytes o b[4 * k.val] b[4 * k.val + 1] b[4 * k.val + 2] b[4 * k.val + 3]

/-- store_word(w): four bytes in their order in the string (spec/20_memory.md R54). -/
def storeWord (o : WordOrder) (w : Word) : Vector Byte 4 :=
  match o with
  | .le => #v[w.extractLsb' 0 8, w.extractLsb' 8 8, w.extractLsb' 16 8, w.extractLsb' 24 8]
  | .be => #v[w.extractLsb' 24 8, w.extractLsb' 16 8, w.extractLsb' 8 8, w.extractLsb' 0 8]

/-- store_word(A) ‖ store_word(B) ‖ store_word(C) ‖ store_word(D) (spec/20_memory.md R54). -/
def storeWords (o : WordOrder) (a b c d : Word) : Block :=
  let p := storeWord o a
  let q := storeWord o b
  let r := storeWord o c
  let s := storeWord o d
  #v[p[0], p[1], p[2], p[3], q[0], q[1], q[2], q[3], r[0], r[1], r[2], r[3], s[0], s[1], s[2], s[3]]

/-- LEN as a number: unsigned, neither scaled nor sign-extended (spec/30_encoding.md R71). -/
def operandLength (len : BitVec 8) : Nat := len.toNat

end Sys2Proof.Machine
end

