-- ==== Sys2Proof/Machine/Rc6.lean ====
section
/-! DEFINITION. The RC6 cipher: parameters, rotations, the key schedule, the round functions and the two block transforms,
as functions on words (spec/00_scope.md R6, R10, R11; spec/41_key_schedule.md section 2; spec/42_block_cipher.md). -/

namespace Sys2Proof.Machine

/-- R, the number of rounds (spec/00_scope.md R6). -/
def roundCount : Nat := 20

/-- BLOCK_BYTES (spec/00_scope.md R6). -/
def blockBytes : Nat := 16

/-- KEY_BYTES (spec/00_scope.md R6). -/
def keyBytes : Nat := 16

/-- KS_ITERS, the number of key-mixing iterations (spec/00_scope.md R6, spec/41_key_schedule.md R115). -/
def keyMixCount : Nat := 132

/-- P32 (spec/00_scope.md R6, spec/41_key_schedule.md R114). -/
def p32 : Word := 0xB7E15163

/-- Q32 (spec/00_scope.md R6, spec/41_key_schedule.md R114). -/
def q32 : Word := 0x9E3779B9

/-- Rotation to the left by `n mod 32` (spec/00_scope.md R11). -/
def rotl (x : Word) (n : Nat) : Word :=
  if n % 32 = 0 then x else (x <<< (n % 32)) ||| (x >>> (32 - n % 32))

/-- Rotation to the right by `n mod 32` (spec/00_scope.md R11). -/
def rotr (x : Word) (n : Nat) : Word :=
  if n % 32 = 0 then x else (x >>> (n % 32)) ||| (x <<< (32 - n % 32))

/-- The five low bits of a word (spec/00_scope.md R10). -/
def lg5 (x : Word) : BitVec 5 := x.extractLsb' 0 5

/-- f(x) = rotl(x * (2x + 1), 5) (spec/42_block_cipher.md R130). -/
def quadratic (x : Word) : Word := rotl (x * (2 * x + 1)) 5

/-! The key schedule. -/

/-- `n` words, each Q32 more than the one before, from `w` on. -/
def seedList : Nat → Word → List Word
  | 0, _ => []
  | n + 1, w => w :: seedList n (w + q32)

theorem seedList_length (n : Nat) (w : Word) : (seedList n w).length = n := by
  induction n generalizing w with
  | zero => rfl
  | succ n ih => simp [seedList, ih]

/-- The array seeded with the magic constants: S[0] = P32, S[i] = S[i-1] + Q32 (spec/41_key_schedule.md R113 step 2). -/
def seededKeys : RoundKeys := ⟨(seedList 44 p32).toArray, by simp [seedList_length]⟩

/-- One iteration of the mixing loop on the array S and the working state (spec/41_key_schedule.md R113 step 3). -/
def mixStep (m : RoundKeys × KeyWork) : RoundKeys × KeyWork :=
  let s := m.1
  let k := m.2
  let ka := rotl (s[k.i] + k.ka + k.kb) 3
  let kb := rotl (k.l[k.j] + ka + k.kb) (ka + k.kb).toNat
  (s.set k.i ka, { l := k.l.set k.j kb, ka := ka, kb := kb, i := k.i + 1, j := k.j + 1 })

/-- The mixing loop run `n` times. -/
def mixLoop : Nat → RoundKeys × KeyWork → RoundKeys × KeyWork
  | 0, m => m
  | n + 1, m => mixLoop n (mixStep m)

/-- The working state before the first iteration: L from the key bytes, the accumulators and indices 0
(spec/41_key_schedule.md R113 steps 1 and 3). -/
def keyWorkInit (o : WordOrder) (kl : Block) : KeyWork :=
  { l := #v[loadWord o kl 0, loadWord o kl 1, loadWord o kl 2, loadWord o kl 3], ka := 0, kb := 0, i := 0, j := 0 }

/-- KeyExpand(KL) (spec/41_key_schedule.md R113). -/
def keyExpand (o : WordOrder) (kl : Block) : RoundKeys :=
  (mixLoop keyMixCount (seededKeys, keyWorkInit o kl)).1

/-! The block transforms. -/

/-- S[i]. Every index the rules use is below 44; above, no rule reads. -/
def roundKey (s : RoundKeys) (i : Nat) : Word := if h : i < 44 then s[i] else 0

/-- The words of a block in A, B, C, D (spec/42_block_cipher.md R141, R151). t and u are written in the first round before
anything reads them. -/
def loadBlock (o : WordOrder) (x : Block) : BlockWork :=
  { a := loadWord o x 0, b := loadWord o x 1, c := loadWord o x 2, d := loadWord o x 3, t := 0, u := 0 }

/-- The bytes of A, B, C, D (spec/42_block_cipher.md R141, R151). -/
def storeBlock (o : WordOrder) (w : BlockWork) : Block := storeWords o w.a w.b w.c w.d

/-- Pre-whitening: S[0] is added to B and S[1] to D (spec/42_block_cipher.md R131, R141). -/
def preWhiten (s : RoundKeys) (w : BlockWork) : BlockWork :=
  { w with b := w.b + roundKey s 0, d := w.d + roundKey s 1 }

/-- Post-whitening: S[42] is added to A and S[43] to C (spec/42_block_cipher.md R131, R141). -/
def postWhiten (s : RoundKeys) (w : BlockWork) : BlockWork :=
  { w with a := w.a + roundKey s 42, c := w.c + roundKey s 43 }

/-- Encryption round `i` (1 to 20): the two equations, then (A, B, C, D) := (B, C, D, A)
(spec/42_block_cipher.md R131, R132, R141). -/
def encRound (s : RoundKeys) (i : Nat) (w : BlockWork) : BlockWork :=
  let t := quadratic w.b
  let u := quadratic w.d
  let a := rotl (w.a ^^^ t) u.toNat + roundKey s (2 * i)
  let c := rotl (w.c ^^^ u) t.toNat + roundKey s (2 * i + 1)
  { a := w.b, b := c, c := w.d, d := a, t := t, u := u }

/-- Encryption rounds 1 to `n`, in this order. -/
def encRounds (s : RoundKeys) : Nat → BlockWork → BlockWork
  | 0, w => w
  | n + 1, w => encRound s (n + 1) (encRounds s n w)

/-- The working words at the end of RC6_Encrypt (spec/42_block_cipher.md R141). -/
def encryptWork (o : WordOrder) (s : RoundKeys) (x : Block) : BlockWork :=
  postWhiten s (encRounds s roundCount (preWhiten s (loadBlock o x)))

/-- RC6_Encrypt(S, X) (spec/42_block_cipher.md R141). -/
def rc6Encrypt (o : WordOrder) (s : RoundKeys) (x : Block) : Block := storeBlock o (encryptWork o s x)

/-- Undo the pre-whitening (spec/42_block_cipher.md R151). -/
def undoPreWhiten (s : RoundKeys) (w : BlockWork) : BlockWork :=
  { w with d := w.d - roundKey s 1, b := w.b - roundKey s 0 }

/-- Undo the post-whitening (spec/42_block_cipher.md R151). -/
def undoPostWhiten (s : RoundKeys) (w : BlockWork) : BlockWork :=
  { w with c := w.c - roundKey s 43, a := w.a - roundKey s 42 }

/-- Decryption round `i` (20 down to 1): (A, B, C, D) := (D, A, B, C), then the two equations undone
(spec/42_block_cipher.md R132, R151). -/
def decRound (s : RoundKeys) (i : Nat) (w : BlockWork) : BlockWork :=
  let a := w.d
  let b := w.a
  let c := w.b
  let d := w.c
  let u := quadratic d
  let t := quadratic b
  { a := rotr (a - roundKey s (2 * i)) u.toNat ^^^ t, b := b,
    c := rotr (c - roundKey s (2 * i + 1)) t.toNat ^^^ u, d := d, t := t, u := u }

/-- Decryption rounds `n` down to 1, in this order. -/
def decRounds (s : RoundKeys) : Nat → BlockWork → BlockWork
  | 0, w => w
  | n + 1, w => decRounds s n (decRound s (n + 1) w)

/-- The working words at the end of RC6_Decrypt (spec/42_block_cipher.md R151). -/
def decryptWork (o : WordOrder) (s : RoundKeys) (y : Block) : BlockWork :=
  undoPreWhiten s (decRounds s roundCount (undoPostWhiten s (loadBlock o y)))

/-- RC6_Decrypt(S, Y) (spec/42_block_cipher.md R151). -/
def rc6Decrypt (o : WordOrder) (s : RoundKeys) (y : Block) : Block := storeBlock o (decryptWork o s y)

end Sys2Proof.Machine
end

