-- ==== Sys2Proof/Machine/Ops.lean ====
section
/-! DEFINITION. The named operations the commands and the bus share: the register map, reading a register, accepting or
refusing a command word, raising a core error, going busy, and reset. -/

namespace Sys2Proof.Machine

/-! The register map (spec/10_state.md R22). -/

/-- The registers of the window. -/
inductive Reg where
  | ctrl
  | status
  | param
  | key (n : Fin 4)
  | din (n : Fin 4)
  | dout (n : Fin 4)
deriving DecidableEq, Repr

/-- The window's size in bytes (spec/00_scope.md R6). -/
def windowBytes : Nat := 0x40

/-- BASE, a multiple of 0x40 (spec/20_memory.md R51). -/
def windowBase (p : Params) : Nat := windowBytes * p.baseIndex

/-- A host address lies in the core's window (spec/20_memory.md R51). -/
def inWindow (p : Params) (addr : Nat) : Bool :=
  decide (windowBase p ≤ addr) && decide (addr < windowBase p + windowBytes)

/-- The offset of each register (spec/10_state.md R22). -/
def Reg.offset : Reg → Nat
  | .ctrl => 0x00
  | .status => 0x04
  | .param => 0x08
  | .key n => 0x10 + 4 * n.val
  | .din n => 0x20 + 4 * n.val
  | .dout n => 0x30 + 4 * n.val

/-- The register at an offset of the window. None at 0x0C, which is unmapped, nor at an offset that is not a multiple of 4
(spec/10_state.md R22, spec/20_memory.md R55, R58). -/
def regAt (off : Nat) : Option Reg :=
  match off with
  | 0x00 => some .ctrl
  | 0x04 => some .status
  | 0x08 => some .param
  | 0x10 => some (.key 0)
  | 0x14 => some (.key 1)
  | 0x18 => some (.key 2)
  | 0x1C => some (.key 3)
  | 0x20 => some (.din 0)
  | 0x24 => some (.din 1)
  | 0x28 => some (.din 2)
  | 0x2C => some (.din 3)
  | 0x30 => some (.dout 0)
  | 0x34 => some (.dout 1)
  | 0x38 => some (.dout 2)
  | 0x3C => some (.dout 3)
  | _ => none

/-- The register a bus access reaches: one word at the offset of a register, else none, which is a BusError
(spec/20_memory.md R55, R58). -/
def target (shape : Transfer) (off : Nat) : Option Reg :=
  if shape = .single 4 then regAt off else none

/-- PARAM, a constant: WORD_BITS 0x20, ROUNDS 0x14, KEY_BYTES 0x10, BLOCK_BYTES 0x10 (spec/10_state.md R27). -/
def paramValue : Word := 0x20141010

/-- What a register reads as, and the state after: a read changes no state of the core (spec/20_memory.md R56). A DOUT
read while BUSY = 1 draws a free value (spec/10_state.md R31, R37); KEY reads as zero (R29). -/
def readReg (r : Reg) (s : State) : Word × State :=
  match r with
  | .ctrl => (s.ctrl, s)
  | .status => (s.status.word, s)
  | .param => (paramValue, s)
  | .key _ => (0, s)
  | .din n => (s.din[n], s)
  | .dout n => if s.status.busy then (Config.busyDout s.draws, s.withDraws (s.draws + 1)) else (s.dout[n], s)

/-- The bus answers a master (log 4). -/
def reply (master : Nat) (a : Response) (s : State) : State :=
  s.withReplies ({ master := master, response := a } :: s.replies)

/-! Core errors: the core's one way of taking an exception. It takes no trap (spec/60_exceptions.md R187): no register is
saved, no mode changes, nothing jumps; and there is no return from one (R188). -/

/-- raise CoreError(code) (spec/60_exceptions.md R182). -/
def raiseCoreError (code : ErrCode) (s : State) : State := s.withStatus (s.status.failed code)

/-- A CTRL write while a command is in flight: the word is discarded and BUSY_VIOLATION recorded
(spec/40_control.md R96, spec/60_exceptions.md R184). -/
def busyViolation (s : State) : State := s.withStatus (s.status.failed .busyViolation)

/-- The first part of accept(v): CTRL takes the word, DONE, ERR and ERRCODE are cleared (spec/40_control.md R90). -/
def beginAccept (v : Word) (s : State) : State := (s.withCtrl v).withStatus s.status.cleared

/-- A command word written to CTRL: refused while BUSY = 1 (R96), else accepted, and `start` is the command's own part of
the acceptance step (spec/40_control.md R90, spec/60_exceptions.md R185). -/
def issue (v : Word) (start : State → State) (s : State) : State :=
  if s.status.busy then busyViolation s else start (beginAccept v s)

/-- A command that passed its checks goes busy: the phase names it and BUSY is set (spec/10_state.md R25, R36). -/
def goBusy (p : Phase) (s : State) : State := (s.withPhase p).withStatus s.status.started

/-- The last part of a completion: BUSY cleared, DONE set, phase IDLE (spec/40_control.md R97). -/
def finish (s : State) : State := (s.withPhase .idle).withStatus s.status.completed

/-- The step of RST: every piece of the core's state takes its reset value (spec/70_reset_and_hazards.md R200). The
configuration, the steps still to come, the answers already given and the count of draws are not the core's state. -/
def resetCore (s : State) : State :=
  { State.reset with params := s.params, events := s.events, replies := s.replies, draws := s.draws }

end Sys2Proof.Machine
end

