-- ==== Sys2Proof/Machine/BlockCipher.lean ====
section
/-! DEFINITION. ENCRYPT and DECRYPT: their acceptance and their completion (spec/42_block_cipher.md). -/

namespace Sys2Proof.Machine

/-- The acceptance of a block command: a length other than BLOCK_BYTES raises INVALID_INPUT, a missing key NO_KEY, in this
order (spec/60_exceptions.md R185); else XL takes the block and the command goes busy (spec/42_block_cipher.md R140, R150). -/
def startBlock (p : Phase) (n : Nat) (s : State) : State :=
  if n ≠ blockBytes then raiseCoreError .invalidInput s
  else if s.status.keyValid = false then raiseCoreError .noKey s
  else goBusy p (s.withXl (latchBytes s.din))

/-- ENCRYPT (spec/42_block_cipher.md R140, R142, R143). -/
def execEncrypt (len : BitVec 8) (s : State) : Host.Outcome State Fault Refusal :=
  .next (issue (encode (.encrypt len)) (startBlock .enc (operandLength len)) s)

/-- DECRYPT (spec/42_block_cipher.md R150, R152). -/
def execDecrypt (len : BitVec 8) (s : State) : Host.Outcome State Fault Refusal :=
  .next (issue (encode (.decrypt len)) (startBlock .dec (operandLength len)) s)

/-- The working words hold the result, whose bytes go to DOUT, all four registers in one step (spec/40_control.md R97). -/
def publishBlock (w : BlockWork) (s : State) : State :=
  finish ((s.withWork w).withDout (packBytes (storeBlock s.params.wordOrder w)))

/-- The ENC arm of the completion: DOUT takes pack(RC6_Encrypt(S, XL)) (spec/40_control.md R97, spec/42_block_cipher.md
R141). The working words keep what the algorithm left in them (log 7). -/
def completeEncrypt (s : State) : State :=
  publishBlock (encryptWork s.params.wordOrder s.roundKeys s.xl) s

/-- The DEC arm of the completion: DOUT takes pack(RC6_Decrypt(S, XL)) (spec/40_control.md R97, spec/42_block_cipher.md
R151). -/
def completeDecrypt (s : State) : State :=
  publishBlock (decryptWork s.params.wordOrder s.roundKeys s.xl) s

end Sys2Proof.Machine
end

