-- ==== Sys2Proof/Machine/Control.lean ====
section
/-! DEFINITION. NOP and the illegal command word (spec/40_control.md, spec/30_encoding.md R75). -/

namespace Sys2Proof.Machine

/-- exec_NOP(): DONE is set (spec/40_control.md R95). -/
def finishNop (s : State) : State := s.withStatus s.status.acknowledged

/-- NOP: no operation, acknowledged; LEN is ignored (spec/40_control.md R95). -/
def execNop (len : BitVec 8) (s : State) : Host.Outcome State Fault Refusal :=
  .next (issue (encode (.nop len)) finishNop s)

/-- A word that decodes to ILLEGAL, written to CTRL: ILLEGAL_CMD, and no other effect than on STATUS and CTRL
(spec/30_encoding.md R75, spec/60_exceptions.md R182, R183). -/
def illegalCommand (v : Word) (s : State) : State := issue v (raiseCoreError .illegalCmd) s

end Sys2Proof.Machine
end

