-- ==== Sys2Proof/Machine/KeySchedule.lean ====
section
/-! DEFINITION. KEY_EXPAND: its acceptance and its completion (spec/41_key_schedule.md). -/

namespace Sys2Proof.Machine

/-- start_KEY_EXPAND(n): a length other than KEY_BYTES clears KEY_VALID and raises CONFIG_ERROR (R112); else KEY_VALID is
cleared, KL takes the key bytes and the command goes busy (spec/41_key_schedule.md R111). -/
def startKeyExpand (n : Nat) (s : State) : State :=
  let s := s.withStatus s.status.keyLost
  if n ≠ keyBytes then raiseCoreError .configError s
  else goBusy .keyx (s.withKl (latchBytes s.key))

/-- KEY_EXPAND (spec/41_key_schedule.md R110). -/
def execKeyExpand (len : BitVec 8) (s : State) : Host.Outcome State Fault Refusal :=
  .next (issue (encode (.keyExpand len)) (startKeyExpand (operandLength len)) s)

/-- The KEYX arm of the completion: S takes KeyExpand(KL), KEY_VALID is set, the working state is discarded
(spec/40_control.md R97, spec/41_key_schedule.md R116; log 7). -/
def completeKeyExpand (s : State) : State :=
  let s := (s.withRoundKeys (keyExpand s.params.wordOrder s.kl)).withKs KeyWork.noValue
  finish (s.withStatus s.status.keyReady)

end Sys2Proof.Machine
end

