-- ==== Sys2Proof/Machine/Dispatch.lean ====
section
/-! DEFINITION. exec: a command word that decodes to an instruction, written to CTRL. -/

namespace Sys2Proof.Machine

def exec (i : Instr) (s : State) : Host.Outcome State Fault Refusal :=
  match i with
  | .nop len => Sys2Proof.Machine.execNop len s
  | .keyExpand len => Sys2Proof.Machine.execKeyExpand len s
  | .encrypt len => Sys2Proof.Machine.execEncrypt len s
  | .decrypt len => Sys2Proof.Machine.execDecrypt len s

end Sys2Proof.Machine
end

