-- ==== Sys2Proof/Machine/Sequencer.lean ====
section
/-! DEFINITION. The step of SEQ: the completion of the command in flight (spec/40_control.md R97). -/

namespace Sys2Proof.Machine

/-- complete(): enabled exactly when a command is in flight; with none, SEQ has no step and nothing changes
(spec/40_control.md R97; log 3). -/
def seqStep (s : State) : State :=
  match s.phase with
  | .idle => s
  | .keyx => completeKeyExpand s
  | .enc => completeEncrypt s
  | .dec => completeDecrypt s

end Sys2Proof.Machine
end

