-- ==== Sys2Proof/Machine/Bus.lean ====
section
/-! DEFINITION. The bus target: host reads and writes of the register window (spec/20_memory.md R55 to R58), and one step
of each agent (spec/00_scope.md R8). -/

namespace Sys2Proof.Machine

/-- A word written to CTRL: a command word (spec/20_memory.md R57, spec/40_control.md R90, R96). -/
def writeCtrl (v : Word) (s : State) : Host.Outcome State Fault Refusal :=
  match decode v with
  | .command i => exec i s
  | .illegal _ => .next (illegalCommand v s)

/-- A legal write of one word to a register (spec/20_memory.md R57). KEY and DIN are stored whatever BUSY is
(spec/10_state.md R29, R30); a write to a read-only register is ignored. -/
def writeReg (r : Reg) (v : Word) (s : State) : Host.Outcome State Fault Refusal :=
  match r with
  | .ctrl => writeCtrl v s
  | .key n => .next (s.withKey (s.key.set n v))
  | .din n => .next (s.withDin (s.din.set n v))
  | .status => .next s
  | .param => .next s
  | .dout _ => .next s

/-- One access of a host (spec/20_memory.md R55 to R58). An access outside the window is the platform's (R51); one in the
window that reaches no register is answered with BusError and changes nothing of the core (R58). -/
def hostAccess (master : Nat) (a : Access) (s : State) : Host.Outcome State Fault Refusal :=
  match a with
  | .read addr shape =>
    if inWindow s.params addr then
      match target shape (addr - windowBase s.params) with
      | none => .next (reply master (.busError addr) s)
      | some r => .next (reply master (.data (readReg r s).1) (readReg r s).2)
    else .fault (.outsideWindow addr)
  | .write addr shape v =>
    if inWindow s.params addr then
      match target shape (addr - windowBase s.params) with
      | none => .next (reply master (.busError addr) s)
      | some r => writeReg r v (reply master .written s)
    else .fault (.outsideWindow addr)

/-- One step of one agent. -/
def runEvent (e : Event) (s : State) : Host.Outcome State Fault Refusal :=
  match e with
  | .host master a => hostAccess master a s
  | .seqComplete => .next (seqStep s)
  | .reset => .next (resetCore s)

end Sys2Proof.Machine
end

