-- ==== Sys2Proof/Machine/Step.lean ====
section
/-! DEFINITION. The step of the machine, and where it takes its next command from. -/

namespace Sys2Proof.Machine

/-- The next agent in the total order makes its step (spec/20_memory.md R60). When no step is pending, SEQ completes the
command in flight, which is the weak fairness of SEQ (spec/40_control.md R100, spec/70_reset_and_hazards.md R215), and
with none in flight nothing happens (log 3). -/
def step (s : State) : Host.Outcome State Fault Refusal :=
  match s.events with
  | [] => .next (seqStep s)
  | e :: rest => runEvent e (s.withEvents rest)

/-- The event that writes a command word to CTRL, by bus master 0. -/
def ctrlWrite (p : Params) (v : Word) : Event :=
  .host 0 (.write (windowBase p + Reg.offset .ctrl) (.single 4) v)

/-- The state whose very next step is the write of this command word to CTRL; nothing else is changed. The core fetches no
instruction: a command is the data of a host's CTRL write (spec/20_memory.md R63; log 3). -/
def State.withFetchWord (s : State) (nbits w : Nat) : State :=
  s.withEvents (ctrlWrite s.params (tableWord nbits w) :: s.events)

end Sys2Proof.Machine
end

