-- ==== Sys2Proof/Machine/HostScript.lean ====
section
/-! DEFINITION. The host script in which the spec writes host programs: its three instructions, their pseudo-instructions
and the spelling of command words (spec/30_encoding.md R76, R77, R78). A host is outside the core: this file drives the
core only through bus accesses. -/

namespace Sys2Proof.Machine

/-- The value a WR writes: a number, or a host variable (spec/30_encoding.md R76; program P2 of spec/95_test_vectors.md). -/
inductive HostValue where
  | imm (v : Word)
  | var (h : Nat)
deriving DecidableEq, Repr

/-- The host script's instructions; a register name stands for its offset (spec/30_encoding.md R76). -/
inductive HostInstr where
  /-- WR reg, imm32 -/
  | wr (off : Nat) (v : HostValue)
  /-- RD reg -> h -/
  | rd (off : Nat) (h : Nat)
  /-- POLL reg, mask, val -/
  | poll (off : Nat) (mask val : Word)
deriving DecidableEq, Repr

/-! The pseudo-instructions (spec/30_encoding.md R77). -/

/-- LDKEY k0, k1, k2, k3 -/
def ldKey (k0 k1 k2 k3 : HostValue) : List HostInstr :=
  [.wr (Reg.offset (.key 0)) k0, .wr (Reg.offset (.key 1)) k1, .wr (Reg.offset (.key 2)) k2, .wr (Reg.offset (.key 3)) k3]

/-- LDBLK d0, d1, d2, d3 -/
def ldBlk (d0 d1 d2 d3 : HostValue) : List HostInstr :=
  [.wr (Reg.offset (.din 0)) d0, .wr (Reg.offset (.din 1)) d1, .wr (Reg.offset (.din 2)) d2, .wr (Reg.offset (.din 3)) d3]

/-- WAIT -/
def hostWait : List HostInstr := [.poll (Reg.offset .status) 0x1 0x0]

/-- KEYX -/
def hostKeyx : List HostInstr := .wr (Reg.offset .ctrl) (.imm 0x00001001) :: hostWait

/-- ENC -/
def hostEnc : List HostInstr := .wr (Reg.offset .ctrl) (.imm 0x00001002) :: hostWait

/-- DEC -/
def hostDec : List HostInstr := .wr (Reg.offset .ctrl) (.imm 0x00001003) :: hostWait

/-- NOP -/
def hostNop : List HostInstr := [.wr (Reg.offset .ctrl) (.imm 0x00000000)]

/-- RDOUT -> h0, h1, h2, h3 -/
def rdOut (h0 h1 h2 h3 : Nat) : List HostInstr :=
  [.rd (Reg.offset (.dout 0)) h0, .rd (Reg.offset (.dout 1)) h1, .rd (Reg.offset (.dout 2)) h2, .rd (Reg.offset (.dout 3)) h3]

/-- CHECK, into the host variable hs -/
def hostCheck (hs : Nat) : List HostInstr := [.rd (Reg.offset .status) hs]

/-- hs[2]: ERR of a CHECK (spec/30_encoding.md R77). -/
def checkErr (hs : Word) : Bool := hs.getLsbD 2

/-- hs[7:4]: the code of a CHECK (spec/30_encoding.md R77). -/
def checkCode (hs : Word) : BitVec 4 := hs.extractLsb' 4 4

/-! Running a script against the core. -/

/-- Why a script stops before its end. -/
inductive Halt where
  /-- the bus answered BusError: the host's own trap takes over, which the spec does not give (spec/20_memory.md R58) -/
  | busError (addr : Nat)
  /-- an access, of the script or of another agent, lies outside the core's window (spec/20_memory.md R51) -/
  | outsideWindow (addr : Nat)
  /-- the script uses a host variable that nothing assigned, to which the script language gives no value -/
  | unassigned (h : Nat)
  /-- a POLL whose condition no later step of the core can meet, so that its loop does not end -/
  | pollForever
deriving DecidableEq, Repr

/-- A script under way: the core, the host variables (latest assignment first), and the steps that other agents make
before each of the script's accesses, which stand for any interleaving and any latency
(spec/20_memory.md R60, spec/70_reset_and_hazards.md R215). -/
structure Session where
  core : State
  vars : List (Nat × Word)
  others : List (List Event)
  halt : Option Halt
deriving DecidableEq, Repr

/-- The session of a master that has the bus to itself: between its next `n` accesses nothing happens, and SEQ completes a
command in flight no later than the WAIT after it (log 10). -/
def aloneSession (s : State) (vars : List (Nat × Word)) (n : Nat) : Session :=
  { core := s, vars := vars, others := List.replicate n [], halt := none }

/-- The value of a host variable. -/
def Session.var? (σ : Session) (h : Nat) : Option Word := (σ.vars.find? fun p => p.1 == h).map (·.2)

/-- The value a WR writes. -/
def Session.value? (σ : Session) : HostValue → Option Word
  | .imm v => some v
  | .var h => σ.var? h

/-- Steps of other agents, in order, stopping at a fault. -/
def runEvents : List Event → State → Host.Outcome State Fault Refusal
  | [], s => .next s
  | e :: rest, s =>
    match runEvent e s with
    | .next t => runEvents rest t
    | .fault r => .fault r
    | .refused r => .refused r

/-- A session that goes on with what the core answered. -/
def Session.goOn (σ : Session) (o : Host.Outcome State Fault Refusal) : Session :=
  match o with
  | .next s => { σ with core := s }
  | .fault (.outsideWindow addr) => { σ with halt := some (.outsideWindow addr) }
  | .refused _ => σ

/-- The steps other agents make before the next access. -/
def Session.advance (σ : Session) : Session :=
  match σ.others with
  | [] => σ
  | es :: rest => Session.goOn { σ with others := rest } (runEvents es σ.core)

/-- One bus transaction of the script's master, after the steps of the other agents; nothing once the script has stopped. -/
def Session.access (master : Nat) (a : Access) (σ : Session) : Session :=
  let σ := σ.advance
  if σ.halt.isSome then σ else σ.goOn (hostAccess master a σ.core)

/-- The answer of the access just made. -/
def Session.answer? (σ : Session) : Option Response := σ.core.replies.head?.map (·.response)

/-- A BusError stops the script. -/
def Session.noteError (σ : Session) : Session :=
  match σ.halt, σ.answer? with
  | none, some (.busError addr) => { σ with halt := some (.busError addr) }
  | _, _ => σ

/-- MemRead(BASE + off, 4). -/
def Session.read (master off : Nat) (σ : Session) : Session :=
  (σ.access master (.read (windowBase σ.core.params + off) (.single 4))).noteError

/-- MemWrite(BASE + off, 4, v). -/
def Session.write (master off : Nat) (v : Word) (σ : Session) : Session :=
  (σ.access master (.write (windowBase σ.core.params + off) (.single 4) v)).noteError

/-- The word a read returned, if the script goes on. -/
def Session.word? (σ : Session) : Option Word :=
  match σ.halt, σ.answer? with
  | none, some (.data v) => some v
  | _, _ => none

/-- POLL: reads until `(h & mask) = val` (spec/30_encoding.md R76). `n` reads may fail while the other agents still have
steps to make; after them SEQ completes what is in flight (weak fairness, R215), and a further read that fails says that
the loop does not end. -/
def Session.poll (master off : Nat) (mask val : Word) : Nat → Session → Session
  | 0, σ =>
    let σ := (if σ.halt.isSome then σ else { σ with core := seqStep σ.core }).read master off
    match σ.word? with
    | some h => if h &&& mask = val then σ else { σ with halt := some .pollForever }
    | none => σ
  | n + 1, σ =>
    let σ := σ.read master off
    match σ.word? with
    | some h => if h &&& mask = val then σ else Session.poll master off mask val n σ
    | none => σ

/-- One instruction of the script; nothing once the script has stopped. -/
def HostInstr.run (master : Nat) (i : HostInstr) (σ : Session) : Session :=
  if σ.halt.isSome then σ else
    match i with
    | .wr off x =>
      match σ.value? x, x with
      | some v, _ => σ.write master off v
      | none, .var h => { σ with halt := some (.unassigned h) }
      | none, .imm _ => σ
    | .rd off h =>
      let σ := σ.read master off
      match σ.word? with
      | some v => { σ with vars := (h, v) :: σ.vars }
      | none => σ
    | .poll off mask val => σ.poll master off mask val σ.others.length

/-- A script: its instructions in order. -/
def runScript (master : Nat) : List HostInstr → Session → Session
  | [], σ => σ
  | i :: rest, σ => runScript master rest (i.run master σ)

/-! The boot sequence and the per-block protocol. -/

/-- Boot: load the key, expand it, wait, check (spec/70_reset_and_hazards.md R204 steps 2 to 4). Step 1, mapping the window
uncached, is the platform's. -/
def bootScript (k0 k1 k2 k3 : HostValue) (hs : Nat) : List HostInstr :=
  ldKey k0 k1 k2 k3 ++ hostKeyx ++ hostCheck hs

/-- The check of boot step 4: ERR = 0 and KEY_VALID = 1 (spec/70_reset_and_hazards.md R204). -/
def bootReady (hs : Word) : Bool := !checkErr hs && hs.getLsbD 3

/-- A command word of any LEN written to CTRL, and the wait for its end (spec/30_encoding.md R76, R77). With LEN = 16 it is
KEYX, ENC or DEC. -/
def commandScript (i : Instr) : List HostInstr := .wr (Reg.offset .ctrl) (.imm (encode i)) :: hostWait

/-- The part of the per-block protocol before the result is read: write DIN, issue the command, wait, check
(spec/70_reset_and_hazards.md R205). -/
def blockScript (i : Instr) (d0 d1 d2 d3 : HostValue) (hs : Nat) : List HostInstr :=
  ldBlk d0 d1 d2 d3 ++ commandScript i ++ hostCheck hs

/-- One block: write DIN, issue ENCRYPT, wait, check, read DOUT (spec/70_reset_and_hazards.md R205). -/
def encryptScript (d0 d1 d2 d3 : HostValue) (hs h0 h1 h2 h3 : Nat) : List HostInstr :=
  blockScript (.encrypt 16) d0 d1 d2 d3 hs ++ rdOut h0 h1 h2 h3

/-- The same with DECRYPT (spec/70_reset_and_hazards.md R205). -/
def decryptScript (d0 d1 d2 d3 : HostValue) (hs h0 h1 h2 h3 : Nat) : List HostInstr :=
  blockScript (.decrypt 16) d0 d1 d2 d3 hs ++ rdOut h0 h1 h2 h3

/-! The spelling of a command word (spec/30_encoding.md R78). -/

/-- A hexadecimal digit, in capitals. -/
def hexDigit (n : Nat) : Char :=
  if n < 10 then Char.ofNat (48 + n) else Char.ofNat (55 + n)

/-- A word in eight hexadecimal digits. -/
def hexWord (v : Word) : String :=
  String.ofList ([7, 6, 5, 4, 3, 2, 1, 0].map fun k => hexDigit (v.extractLsb' (4 * k) 4).toNat)

/-- `len=16` is the default that may be omitted. -/
def spellLen (len : BitVec 8) : String :=
  if operandLength len = 16 then "" else " len=" ++ toString (operandLength len)

/-- The spelling of a command word. -/
def spell (v : Word) : String :=
  match decode v with
  | .command (.nop _) => "NOP"
  | .command (.keyExpand n) => "KEY_EXPAND" ++ spellLen n
  | .command (.encrypt n) => "ENCRYPT" ++ spellLen n
  | .command (.decrypt n) => "DECRYPT" ++ spellLen n
  | .illegal _ => "ILLEGAL 0x" ++ hexWord v

end Sys2Proof.Machine
end

