-- ==== Sys2Proof/Machine/HostModes.lean ====
section
/-! DEFINITION. The chaining modes of spec/43_host_usage.md as functions of the block operations E and D: what a mode computes.
Machine/HostCalls.lean says by which accesses to the core a host computes it. They add no state to the core. -/

namespace Sys2Proof.Machine

/-- Bytewise exclusive-or of two 16-byte strings (spec/43_host_usage.md R162). -/
def xorBlock (x y : Block) : Block := Vector.zipWith (· ^^^ ·) x y

/-- The chaining modes of the table of R162. A mode is mapped literally to its own sequence (spec/43_host_usage.md R168). -/
inductive ChainMode where
  | ecb
  | cbc
  | pcbc
  | cfb
  | ofb
  | ctr
  | randomDelta
deriving DecidableEq, Repr

/-- BE32(n): the 4-byte big-endian encoding (spec/00_scope.md R13). -/
def be32 (n : Nat) : Vector Byte 4 := storeWord .be (BitVec.ofNat 32 n)

/-- CB_i = IV[0..11] ‖ BE32(i) (spec/43_host_usage.md R164). -/
def counterBlock (iv : Block) (i : Nat) : Block :=
  #v[iv[0], iv[1], iv[2], iv[3], iv[4], iv[5], iv[6], iv[7], iv[8], iv[9], iv[10], iv[11],
     (be32 i)[0], (be32 i)[1], (be32 i)[2], (be32 i)[3]]

/-- DIN3 of counter block i, as the rule gives it in terms of the register (spec/43_host_usage.md R164). -/
def counterDin3 (i : Nat) : Word :=
  BitVec.ofNat 32 (((i &&& 0xFF) <<< 24) ||| ((i >>> 8 &&& 0xFF) <<< 16) ||| ((i >>> 16 &&& 0xFF) <<< 8) ||| (i >>> 24))

/-- A CTR buffer of more than 2^32 blocks must not be sent (spec/43_host_usage.md R165). -/
def modeAllows (m : ChainMode) (blocks : Nat) : Bool :=
  match m with
  | .ctr => decide (blocks ≤ 2 ^ 32)
  | .ecb => true
  | .cbc => true
  | .pcbc => true
  | .cfb => true
  | .ofb => true
  | .randomDelta => true

/-- The block encryption and decryption a mode is built on: E(X) and D(X) of R162. -/
structure BlockOps where
  e : Block → Block
  d : Block → Block

/-! The table of R162, one function per row; `prev` is what the row carries from block to block, `i` the block index. -/

def ecbEncrypt (c : BlockOps) (ps : List Block) : List Block := ps.map c.e
def ecbDecrypt (c : BlockOps) (cs : List Block) : List Block := cs.map c.d

/-- CBC: C_i = E(P_i ^ C_{i-1}). -/
def cbcEncrypt (c : BlockOps) (prev : Block) : List Block → List Block
  | [] => []
  | p :: ps =>
    let y := c.e (xorBlock p prev)
    y :: cbcEncrypt c y ps

/-- CBC: P_i = D(C_i) ^ C_{i-1}. -/
def cbcDecrypt (c : BlockOps) (prev : Block) : List Block → List Block
  | [] => []
  | y :: ys => xorBlock (c.d y) prev :: cbcDecrypt c y ys

/-- PCBC: C_i = E(P_i ^ P_{i-1} ^ C_{i-1}). -/
def pcbcEncrypt (c : BlockOps) (prevP prevC : Block) : List Block → List Block
  | [] => []
  | p :: ps =>
    let y := c.e (xorBlock (xorBlock p prevP) prevC)
    y :: pcbcEncrypt c p y ps

/-- PCBC: P_i = D(C_i) ^ P_{i-1} ^ C_{i-1}. -/
def pcbcDecrypt (c : BlockOps) (prevP prevC : Block) : List Block → List Block
  | [] => []
  | y :: ys =>
    let p := xorBlock (xorBlock (c.d y) prevP) prevC
    p :: pcbcDecrypt c p y ys

/-- CFB: C_i = P_i ^ E(C_{i-1}). -/
def cfbEncrypt (c : BlockOps) (prev : Block) : List Block → List Block
  | [] => []
  | p :: ps =>
    let y := xorBlock p (c.e prev)
    y :: cfbEncrypt c y ps

/-- CFB: P_i = C_i ^ E(C_{i-1}). -/
def cfbDecrypt (c : BlockOps) (prev : Block) : List Block → List Block
  | [] => []
  | y :: ys => xorBlock y (c.e prev) :: cfbDecrypt c y ys

/-- OFB, both ways: K_i = E(K_{i-1}), output input ^ K_i. -/
def ofbApply (c : BlockOps) (prev : Block) : List Block → List Block
  | [] => []
  | x :: xs =>
    let k := c.e prev
    xorBlock x k :: ofbApply c k xs

/-- CTR and Random-Delta, both ways: output input ^ E(f(i)), from block index `i` on. -/
def keystreamApply (c : BlockOps) (f : Nat → Block) (i : Nat) : List Block → List Block
  | [] => []
  | x :: xs => xorBlock x (c.e (f i)) :: keystreamApply c f (i + 1) xs

/-- Encryption of a buffer of whole blocks in a mode; none where the host must not do it (spec/43_host_usage.md R162, R165).
The PCBC start values and the Random-Delta input are OPEN (R166, R167; log 9). -/
def modeEncrypt (m : ChainMode) (c : BlockOps) (iv : Block) (ps : List Block) : Option (List Block) :=
  if modeAllows m ps.length then
    match m with
    | .ecb => some (ecbEncrypt c ps)
    | .cbc => some (cbcEncrypt c iv ps)
    | .pcbc => some (pcbcEncrypt c (Config.pcbcInit iv).1 (Config.pcbcInit iv).2 ps)
    | .cfb => some (cfbEncrypt c iv ps)
    | .ofb => some (ofbApply c iv ps)
    | .ctr => some (keystreamApply c (counterBlock iv) 0 ps)
    | .randomDelta => some (keystreamApply c (Config.randomDelta iv) 0 ps)
  else none

/-- Decryption of a buffer of whole blocks in a mode (spec/43_host_usage.md R162, R165). -/
def modeDecrypt (m : ChainMode) (c : BlockOps) (iv : Block) (cs : List Block) : Option (List Block) :=
  if modeAllows m cs.length then
    match m with
    | .ecb => some (ecbDecrypt c cs)
    | .cbc => some (cbcDecrypt c iv cs)
    | .pcbc => some (pcbcDecrypt c (Config.pcbcInit iv).1 (Config.pcbcInit iv).2 cs)
    | .cfb => some (cfbDecrypt c iv cs)
    | .ofb => some (ofbApply c iv cs)
    | .ctr => some (keystreamApply c (counterBlock iv) 0 cs)
    | .randomDelta => some (keystreamApply c (Config.randomDelta iv) 0 cs)
  else none

/-- The block operations a keyed core gives (spec/43_host_usage.md R162). -/
def coreOps (o : WordOrder) (s : RoundKeys) : BlockOps := { e := rc6Encrypt o s, d := rc6Decrypt o s }

/-- The core command a mode issues to decrypt a block: CFB, OFB, CTR and Random-Delta never issue DECRYPT
(spec/43_host_usage.md R162). To encrypt, every mode issues ENCRYPT. -/
def decryptCommand (m : ChainMode) : Instr :=
  match m with
  | .ecb => .decrypt 16
  | .cbc => .decrypt 16
  | .pcbc => .decrypt 16
  | .cfb => .encrypt 16
  | .ofb => .encrypt 16
  | .ctr => .encrypt 16
  | .randomDelta => .encrypt 16

/-- Blocks of a call that may be sent to the core in any order when encrypting (spec/43_host_usage.md R163). -/
def encryptAnyOrder (m : ChainMode) : Bool :=
  match m with
  | .ecb => true
  | .ctr => true
  | .randomDelta => true
  | .cbc => false
  | .pcbc => false
  | .cfb => false
  | .ofb => false

/-- The same when decrypting; CBC decryption is parallel, by spec/90_conflicts.md C2 (spec/43_host_usage.md R163). -/
def decryptAnyOrder (m : ChainMode) : Bool :=
  match m with
  | .ecb => true
  | .ctr => true
  | .randomDelta => true
  | .cfb => true
  | .cbc => true
  | .pcbc => false
  | .ofb => false

/-- The blocks of a buffer: block `i` is `M[16i .. 16i+15]` (spec/43_host_usage.md R160). The spec says that the length of a
buffer fed to a mode is always a multiple of 16 and does not say what becomes of another one: none, that is, such a buffer
is refused whole and no byte of it is dropped (DESIGN CHOICE, log 12). -/
def bufferBlocks : List Byte → Option (List Block)
  | [] => some []
  | b0 :: b1 :: b2 :: b3 :: b4 :: b5 :: b6 :: b7 :: b8 :: b9 :: b10 :: b11 :: b12 :: b13 :: b14 :: b15 :: rest =>
    (bufferBlocks rest).map (#v[b0, b1, b2, b3, b4, b5, b6, b7, b8, b9, b10, b11, b12, b13, b14, b15] :: ·)
  | _ => none

/-- The bytes of a buffer of whole blocks (spec/43_host_usage.md R160). -/
def blockBuffer (blocks : List Block) : List Byte := blocks.flatMap Vector.toList

end Sys2Proof.Machine
end

