-- ==== Sys2Proof/Machine/HostCalls.lean ====
section
/-! DEFINITION. A call of a chaining mode as a host makes it: block by block, by the per-block protocol on the core
(spec/43_host_usage.md R162, spec/70_reset_and_hazards.md R205), with the check of every command and the errors a host
reports (R171, R172). A host is outside the core: everything here reaches the core through bus accesses only. -/

namespace Sys2Proof.Machine

/-! Errors as a host reports them. -/

/-- The document's error classes as far as the core's errors reach them (spec/43_host_usage.md R172). -/
inductive HostError where
  | configurationError
  | invalidInput
  /-- OperationFailed, carrying the core's code as the cause -/
  | operationFailed (cause : ErrCode)
  /-- OperationFailed for a BusError -/
  | operationFailedBus
deriving DecidableEq, Repr

/-- The mapping of the core's codes (spec/43_host_usage.md R172). -/
def hostError : ErrCode → Option HostError
  | .none => none
  | .configError => some .configurationError
  | .invalidInput => some .invalidInput
  | .noKey => some (.operationFailed .noKey)
  | .illegalCmd => some (.operationFailed .illegalCmd)
  | .busyViolation => some (.operationFailed .busyViolation)

/-- Why a host's work has neither a result nor an error of the document's: the spec gives it no meaning. -/
inductive HostRefusal where
  /-- a buffer of so many bytes, no multiple of 16 (spec/43_host_usage.md R160; log 12) -/
  | raggedBuffer (bytes : Nat)
  /-- a CTR buffer of so many blocks, more than 2^32 (spec/43_host_usage.md R165) -/
  | counterLimit (blocks : Nat)
  /-- the script halted, on something other than a BusError (log 10) -/
  | scriptHalted (why : Halt)
  /-- a CHECK shows ERR = 1 with a code that names no error: never produced (spec/60_exceptions.md R180) -/
  | reservedCode (code : BitVec 4)
deriving DecidableEq, Repr

/-- How a host's work on the core can fail. -/
inductive HostFailure where
  | error (e : HostError)
  | refused (why : HostRefusal)
deriving DecidableEq, Repr

/-- What a CHECK tells: nothing when ERR = 0, else the error that its code names (spec/30_encoding.md R77,
spec/43_host_usage.md R171, R172). -/
def checkFailure (hs : Word) : Option HostFailure :=
  if checkErr hs then
    match (ErrCode.ofBits (checkCode hs)).bind hostError with
    | some e => some (.error e)
    | none => some (.refused (.reservedCode (checkCode hs)))
  else none

/-- What the halt of a script tells: a BusError is OperationFailed (spec/43_host_usage.md R172). -/
def haltFailure : Halt → HostFailure
  | .busError _ => .error .operationFailedBus
  | .outsideWindow addr => .refused (.scriptHalted (.outsideWindow addr))
  | .unassigned h => .refused (.scriptHalted (.unassigned h))
  | .pollForever => .refused (.scriptHalted .pollForever)

/-! A command and its check, and the blocks of a call. -/

/-- A call under way: the script session, the words its CHECKs read and the blocks it has put out, newest first. -/
structure Call where
  session : Session
  checks : List Word
  out : List Block
deriving DecidableEq, Repr

/-- What has gone wrong in a call so far, if anything: a halt of its script, or a CHECK with ERR = 1
(spec/43_host_usage.md R171). -/
def callFailure (c : Call) : Option HostFailure :=
  match c.session.halt with
  | some h => some (haltFailure h)
  | none => c.checks.findSome? checkFailure

/-- A script that ends with the CHECK of a command, into the host variable 0, and the word that CHECK read
(spec/43_host_usage.md R171: STATUS.ERR is checked after every command). -/
def checkedScript (master : Nat) (script : List HostInstr) (c : Call) : Call :=
  let σ := runScript master script c.session
  match σ.halt, σ.var? 0 with
  | none, some hs => { c with session := σ, checks := hs :: c.checks }
  | _, _ => { c with session := σ }

/-- Loading a key: KEY0..KEY3, a KEY_EXPAND word, the wait and the check. The rule's LEN is 16
(spec/43_host_usage.md R161, spec/70_reset_and_hazards.md R204 steps 2 to 4). -/
def loadKey (master : Nat) (len : BitVec 8) (key : Block) (c : Call) : Call :=
  let k := packBytes key
  checkedScript master
    (ldKey (.imm k[0]) (.imm k[1]) (.imm k[2]) (.imm k[3]) ++ commandScript (.keyExpand len) ++ hostCheck 0) c

/-- RDOUT: the block read from DOUT0..DOUT3 into the host variables 1 to 4 (spec/20_memory.md R53). -/
def readResult (master : Nat) (c : Call) : Call × Option Block :=
  let σ := runScript master (rdOut 1 2 3 4) c.session
  let c := { c with session := σ }
  match σ.halt, σ.var? 1, σ.var? 2, σ.var? 3, σ.var? 4 with
  | none, some w0, some w1, some w2, some w3 => (c, some (latchBytes #v[w0, w1, w2, w3]))
  | _, _, _, _, _ => (c, none)

/-- E(X) or D(X) on the core, by the command `i`: write X to DIN0..DIN3, issue the command, wait for BUSY = 0, check ERR,
read DOUT0..DOUT3 (spec/43_host_usage.md R162, spec/70_reset_and_hazards.md R205). No block when the call has failed. -/
def coreBlock (master : Nat) (i : Instr) (x : Block) (c : Call) : Call × Option Block :=
  let d := packBytes x
  let c := checkedScript master (blockScript i (.imm d[0]) (.imm d[1]) (.imm d[2]) (.imm d[3]) 0) c
  if (callFailure c).isSome then (c, none) else readResult master c

/-! The table of R162 row by row, as what a host does with one block. -/

/-- Which way a mode is used. -/
inductive Direction where
  | encrypt
  | decrypt
deriving DecidableEq, Repr

/-- What a mode carries from a block to the next: P_{i-1}, and C_{i-1} (for OFB, K_{i-1} in its place). -/
structure Carry where
  p : Block
  c : Block
deriving DecidableEq, Repr

/-- What a host does for one block: the input X of E or D, the command it issues, and from the core's output Y the block it
puts out and what it carries on. -/
structure BlockPlan where
  command : Instr
  input : Block
  output : Block → Block
  carry : Block → Carry

/-- What a mode starts from: C_{-1} (K_{-1} for OFB) is the IV; PCBC's pair is OPEN (spec/43_host_usage.md R162, R167;
log 9). -/
def startCarry (m : ChainMode) (iv : Block) : Carry :=
  match m with
  | .ecb => { p := iv, c := iv }
  | .cbc => { p := iv, c := iv }
  | .pcbc => { p := (Config.pcbcInit iv).1, c := (Config.pcbcInit iv).2 }
  | .cfb => { p := iv, c := iv }
  | .ofb => { p := iv, c := iv }
  | .ctr => { p := iv, c := iv }
  | .randomDelta => { p := iv, c := iv }

/-- The column "Encrypt, per block i" (spec/43_host_usage.md R162, R164, R166). -/
def encryptPlan (m : ChainMode) (iv : Block) (k : Carry) (i : Nat) (x : Block) : BlockPlan :=
  match m with
  | .ecb => { command := .encrypt 16, input := x, output := id, carry := fun _ => k }
  | .cbc => { command := .encrypt 16, input := xorBlock x k.c, output := id, carry := fun y => { p := x, c := y } }
  | .pcbc =>
    { command := .encrypt 16, input := xorBlock (xorBlock x k.p) k.c, output := id, carry := fun y => { p := x, c := y } }
  | .cfb =>
    { command := .encrypt 16, input := k.c, output := xorBlock x, carry := fun y => { p := x, c := xorBlock x y } }
  | .ofb => { command := .encrypt 16, input := k.c, output := xorBlock x, carry := fun y => { p := x, c := y } }
  | .ctr => { command := .encrypt 16, input := counterBlock iv i, output := xorBlock x, carry := fun _ => k }
  | .randomDelta => { command := .encrypt 16, input := Config.randomDelta iv i, output := xorBlock x, carry := fun _ => k }

/-- The column "Decrypt, per block i"; the command is the one of the last column (spec/43_host_usage.md R162). -/
def decryptPlan (m : ChainMode) (iv : Block) (k : Carry) (i : Nat) (x : Block) : BlockPlan :=
  let command := decryptCommand m
  match m with
  | .ecb => { command, input := x, output := id, carry := fun _ => k }
  | .cbc => { command, input := x, output := fun y => xorBlock y k.c, carry := fun y => { p := xorBlock y k.c, c := x } }
  | .pcbc =>
    { command, input := x, output := fun y => xorBlock (xorBlock y k.p) k.c,
      carry := fun y => { p := xorBlock (xorBlock y k.p) k.c, c := x } }
  | .cfb => { command, input := k.c, output := xorBlock x, carry := fun y => { p := xorBlock x y, c := x } }
  | .ofb => { command, input := k.c, output := xorBlock x, carry := fun y => { p := xorBlock x y, c := y } }
  | .ctr => { command, input := counterBlock iv i, output := xorBlock x, carry := fun _ => k }
  | .randomDelta => { command, input := Config.randomDelta iv i, output := xorBlock x, carry := fun _ => k }

/-- The plan of a block, either way. -/
def blockPlan (d : Direction) (m : ChainMode) (iv : Block) (k : Carry) (i : Nat) (x : Block) : BlockPlan :=
  match d with
  | .encrypt => encryptPlan m iv k i x
  | .decrypt => decryptPlan m iv k i x

/-! A whole call. -/

/-- A call goes on with the block the core gave; without one it is aborted (spec/43_host_usage.md R171). -/
def afterBlock (r : Call × Option Block) (next : Block → Call → Call) : Call :=
  match r.2 with
  | some y => next y r.1
  | none => r.1

/-- The blocks of a call on the core, in increasing index from `i` on, which every mode admits (spec/43_host_usage.md R163).
A failure aborts the call: no later block is sent (R171). -/
def runBlocks (master : Nat) (d : Direction) (m : ChainMode) (iv : Block) : Carry → Nat → List Block → Call → Call
  | _, _, [], c => c
  | k, i, x :: xs, c =>
    let plan := blockPlan d m iv k i x
    afterBlock (coreBlock master plan.command plan.input c) fun y c =>
      runBlocks master d m iv (plan.carry y) (i + 1) xs { c with out := plan.output y :: c.out }

/-- How a call fails: the whole operation is reported as OperationFailed with its cause (spec/43_host_usage.md R171, the
cause by R172), or the spec gives it no meaning. -/
inductive CallFailure where
  | operationFailed (cause : HostError)
  | refused (why : HostRefusal)
deriving DecidableEq, Repr

/-- A failure inside a call is the failure of the whole call (spec/43_host_usage.md R171). -/
def abortCall : HostFailure → CallFailure
  | .error e => .operationFailed e
  | .refused why => .refused why

/-- Whole-call failure: the output buffer is kept only if no command of the call reported ERR = 1 and no access got a
BusError (spec/43_host_usage.md R171). -/
def callResult (c : Call) : Except CallFailure (List Block) :=
  match callFailure c with
  | some f => .error (abortCall f)
  | none => .ok c.out.reverse

/-- A call that has done nothing yet, over a session. -/
def beginCall (σ : Session) : Call := { session := σ, checks := [], out := [] }

/-- A call of a mode on a buffer of whole blocks: the call as it ends, and its result (spec/43_host_usage.md R162, R171). A
CTR buffer over the limit is refused before any access (R165). -/
def modeCall (master : Nat) (d : Direction) (m : ChainMode) (iv : Block) (blocks : List Block) (σ : Session) :
    Call × Except CallFailure (List Block) :=
  if modeAllows m blocks.length then
    let c := runBlocks master d m iv (startCarry m iv) 0 blocks (beginCall σ)
    (c, callResult c)
  else (beginCall σ, .error (.refused (.counterLimit blocks.length)))

/-- A call on a buffer of bytes; one whose length is no multiple of 16 is refused before any access
(spec/43_host_usage.md R160; log 12). -/
def bufferCall (master : Nat) (d : Direction) (m : ChainMode) (iv : Block) (bytes : List Byte) (σ : Session) :
    Call × Except CallFailure (List Byte) :=
  match bufferBlocks bytes with
  | none => (beginCall σ, .error (.refused (.raggedBuffer bytes.length)))
  | some blocks =>
    match modeCall master d m iv blocks σ with
    | (c, .ok out) => (c, .ok (blockBuffer out))
    | (c, .error f) => (c, .error f)

end Sys2Proof.Machine
end

