-- ==== Sys2Proof/Safety.lean ====
section
/-! DEFINITION. The terms claims are stated in: which step comes next, the invariant of the machine, which states are alike
for a host, and when a run is over. -/

namespace Sys2Proof.Machine

/-! Which step comes next. -/

/-- The next step is a reset. -/
def nextIsReset (s : State) : Prop := s.events.head? = some .reset

/-- The next step is the completion of the command in flight, of this phase. -/
def nextCompletes (p : Phase) (s : State) : Prop :=
  s.phase = p ∧ (s.events.head? = none ∨ s.events.head? = some .seqComplete)

/-- The next step is a host's legal write of this word to this register. -/
def nextWrites (r : Reg) (v : Word) (s : State) : Prop :=
  ∃ master, s.events.head? = some (.host master (.write (windowBase s.params + r.offset) (.single 4) v))

/-- The next step is the acceptance of this command word (spec/40_control.md R90). -/
def nextAccepts (v : Word) (s : State) : Prop := nextWrites .ctrl v s ∧ s.status.busy = false

/-- The next step is the refusal of a CTRL write (spec/40_control.md R96). -/
def nextRefuses (s : State) : Prop := (∃ v, nextWrites .ctrl v s) ∧ s.status.busy = true

/-- The address an access names. -/
def Access.addr : Access → Nat
  | .read addr _ => addr
  | .write addr _ _ => addr

/-- An event that is not an access outside the core's window. -/
def Event.concernsCore (p : Params) : Event → Bool
  | .host _ a => inWindow p a.addr
  | .seqComplete => true
  | .reset => true

/-! The invariant. -/

/-- What holds in every state the machine reaches from reset. -/
structure Invariant (s : State) : Prop where
  /-- BUSY = 1 if and only if the phase is not IDLE (spec/10_state.md R36) -/
  busy_iff : s.status.busy = true ↔ s.phase ≠ .idle
  /-- codes 6 to 15 are never produced (spec/60_exceptions.md R180) -/
  errcode_le : s.status.errcode.toNat ≤ 5
  /-- ERRCODE is an error's code when ERR = 1, else 0 (spec/10_state.md R24) -/
  err_iff : s.status.err = true ↔ s.status.errcode ≠ 0
  /-- while a command is in flight DONE = 0 (spec/10_state.md R26) -/
  busy_not_done : s.status.busy = true → s.status.done = false
  /-- an error during a command, or beside DONE, is a BUSY_VIOLATION (spec/10_state.md R26, spec/60_exceptions.md R188) -/
  err_busy_or_done : s.status.err = true → (s.status.busy = true ∨ s.status.done = true) →
    s.status.errcode = ErrCode.busyViolation.bits
  /-- KEY_VALID = 1 only if S is the schedule of the latched key (spec/10_state.md R39) -/
  schedule : s.status.keyValid = true → s.roundKeys = keyExpand s.params.wordOrder s.kl
  /-- KEY_VALID = 0 while a KEY_EXPAND is in flight (spec/41_key_schedule.md R111) -/
  keyx_no_key : s.phase = .keyx → s.status.keyValid = false
  /-- a block command in flight has a key (spec/42_block_cipher.md R143, R152) -/
  block_has_key : s.phase = .enc ∨ s.phase = .dec → s.status.keyValid = true
  /-- CTRL holds the command in flight (spec/10_state.md R23, spec/40_control.md R96) -/
  ctrl_keyx : s.phase = .keyx → s.ctrl = 0x00001001
  ctrl_enc : s.phase = .enc → s.ctrl = 0x00001002
  ctrl_dec : s.phase = .dec → s.ctrl = 0x00001003

/-! What a host can tell. -/

/-- Two states that agree on everything but hidden state that no command in flight and no valid key makes live: the
round-key file while KEY_VALID = 0, the latches while no command reads them, the working state always
(spec/10_state.md R32 to R37). -/
structure HiddenAlike (s t : State) : Prop where
  ctrl : s.ctrl = t.ctrl
  status : s.status = t.status
  key : s.key = t.key
  din : s.din = t.din
  dout : s.dout = t.dout
  phase : s.phase = t.phase
  params : s.params = t.params
  events : s.events = t.events
  replies : s.replies = t.replies
  draws : s.draws = t.draws
  roundKeys : s.status.keyValid = true → s.roundKeys = t.roundKeys
  kl : s.phase = .keyx → s.kl = t.kl
  xl : s.phase = .enc ∨ s.phase = .dec → s.xl = t.xl

/-! The end of a run. -/

/-- A host was answered with BusError, which a model records as a fault of that host (spec/20_memory.md R58). -/
def hostFaulted (s : State) : Bool :=
  s.replies.any fun r =>
    match r.response with
    | .busError _ => true
    | .data _ => false
    | .written => false

/-- A run is over: the hosts have ended and no command is in flight (spec/70_reset_and_hazards.md R216). -/
def runOver (s : State) : Bool := s.events.isEmpty && decide (s.phase = .idle)

/-- A run is over and no host fault stands in its record: a state with a recorded fault is never final
(spec/93_implementation_defined.md section 1, "fault"). -/
def runFinal (s : State) : Bool := runOver s && !hostFaulted s

end Sys2Proof.Machine
end

