-- ==== Sys2Proof/Certificates/Slice0/Obligations.lean ====
section
/-! DEFINITION. The statements about the machine that the provers settle. A docstring names the rule a statement formalises;
where a clause is the model's own choice it names the log entry. -/

open Sys2Proof Sys2Proof.Machine

/-! Commands as words. -/

/-- Decoding the word of a well-formed command gives the command back, with every LEN (spec/30_encoding.md R70, R73, R74). -/
def Obligations.DecodeInvertsEncode : Prop :=
  ∀ i : Instr, i.wellFormed = true → decode (encode i) = .command i

/-- A word that decodes to a command is that command's word: each command word has one meaning and each command with its
LEN one word (spec/30_encoding.md R70, R73, R74). -/
def Obligations.EncodeInvertsDecode : Prop :=
  ∀ (v : Word) (i : Instr), decode v = .command i → encode i = v

/-- A word selects an instruction when (v & 0xFFFF00FF) = CMD, with LEN its bits 15:8; every other word selects none
(spec/30_encoding.md R73, R74, R75). -/
def Obligations.DecodeFollowsOpcodeMap : Prop :=
  ∀ v : Word,
    (v &&& 0xFFFF00FF = 0 → decode v = .command (.nop (v.extractLsb' 8 8))) ∧
    (v &&& 0xFFFF00FF = 1 → decode v = .command (.keyExpand (v.extractLsb' 8 8))) ∧
    (v &&& 0xFFFF00FF = 2 → decode v = .command (.encrypt (v.extractLsb' 8 8))) ∧
    (v &&& 0xFFFF00FF = 3 → decode v = .command (.decrypt (v.extractLsb' 8 8))) ∧
    (3 < (v &&& 0xFFFF00FF).toNat → ∃ why, decode v = .illegal why)

/-- The canonical words of R73, a word with another LEN (R78) and words with reserved bits or codes (R75). -/
def Obligations.SampleWordsDecode : Prop :=
  decode 0x00000000 = .command (.nop 0) ∧ decode 0x00001001 = .command (.keyExpand 16) ∧
  decode 0x00001002 = .command (.encrypt 16) ∧ decode 0x00001003 = .command (.decrypt 16) ∧
  decode 0x00000F02 = .command (.encrypt 15) ∧ decode 0x00001004 = .illegal .reservedCommand ∧
  decode 0x00000812 = .illegal .reservedBits ∧ decode 0x80000000 = .illegal .reservedBits

/-- A host's write of a command word to CTRL, as the next event, runs the decoded command: the bus takes the write (reply
`written`, log 4) and the command's meaning follows (spec/20_memory.md R57, R63). -/
def Obligations.StepRunsDecodedCommand : Prop :=
  ∀ (s : State) (m : Nat) (v : Word) (rest : List Event) (i : Instr),
    s.events = .host m (.write (windowBase s.params + 0x00) (.single 4) v) :: rest →
    decode v = .command i →
    step s = exec i { s with events := rest, replies := { master := m, response := .written } :: s.replies }

/-! Accepted and refused commands. -/

/-- R95: NOP, with any LEN, sets DONE and clears ERR and ERRCODE; CTRL takes the word (R90); nothing else changes. -/
def Obligations.NopAcknowledges : Prop :=
  ∀ (len : BitVec 8) (s : State), s.status.busy = false →
    exec (.nop len) s = .next { s with
      ctrl := (0 : BitVec 16) ++ len ++ (0x00 : BitVec 8)
      status := { s.status with done := true, err := false, errcode := 0 } }

/-- R111: KEY_EXPAND with LEN = 16 clears KEY_VALID, latches the key, sets BUSY and the phase KEYX; CTRL takes the word and
DONE, ERR, ERRCODE are cleared (R90); nothing else changes. -/
def Obligations.KeyExpandStarts : Prop :=
  ∀ s : State, s.status.busy = false →
    exec (.keyExpand 16) s = .next { s with
      ctrl := 0x00001001, kl := latchBytes s.key, phase := .keyx
      status := { busy := true, done := false, err := false, keyValid := false, errcode := 0 } }

/-- R112: KEY_EXPAND with another LEN clears KEY_VALID and records CONFIG_ERROR; S, KL, the phase and BUSY are unchanged. -/
def Obligations.KeyExpandWrongLength : Prop :=
  ∀ (len : BitVec 8) (s : State), s.status.busy = false → len ≠ 16 →
    exec (.keyExpand len) s = .next { s with
      ctrl := (0 : BitVec 16) ++ len ++ (0x01 : BitVec 8)
      status := { s.status with done := false, err := true, keyValid := false, errcode := 2 } }

/-- R140: ENCRYPT with LEN = 16 and a valid key latches the block, sets BUSY and the phase ENC; CTRL takes the word and DONE,
ERR, ERRCODE are cleared (R90); nothing else changes. -/
def Obligations.EncryptStarts : Prop :=
  ∀ s : State, s.status.busy = false → s.status.keyValid = true →
    exec (.encrypt 16) s = .next { s with
      ctrl := 0x00001002, xl := latchBytes s.din, phase := .enc
      status := { s.status with busy := true, done := false, err := false, errcode := 0 } }

/-- R142: ENCRYPT with another LEN records INVALID_INPUT, whether or not there is a key. -/
def Obligations.EncryptWrongLength : Prop :=
  ∀ (len : BitVec 8) (s : State), s.status.busy = false → len ≠ 16 →
    exec (.encrypt len) s = .next { s with
      ctrl := (0 : BitVec 16) ++ len ++ (0x02 : BitVec 8)
      status := { s.status with done := false, err := true, errcode := 1 } }

/-- R143: ENCRYPT with LEN = 16 while KEY_VALID = 0 records NO_KEY. -/
def Obligations.EncryptWithoutKey : Prop :=
  ∀ s : State, s.status.busy = false → s.status.keyValid = false →
    exec (.encrypt 16) s = .next { s with
      ctrl := 0x00001002
      status := { s.status with done := false, err := true, errcode := 3 } }

/-- R150: DECRYPT with LEN = 16 and a valid key latches the block, sets BUSY and the phase DEC; CTRL takes the word and DONE,
ERR, ERRCODE are cleared (R90); nothing else changes. -/
def Obligations.DecryptStarts : Prop :=
  ∀ s : State, s.status.busy = false → s.status.keyValid = true →
    exec (.decrypt 16) s = .next { s with
      ctrl := 0x00001003, xl := latchBytes s.din, phase := .dec
      status := { s.status with busy := true, done := false, err := false, errcode := 0 } }

/-- R152: DECRYPT with another LEN records INVALID_INPUT, and with LEN = 16 while KEY_VALID = 0 records NO_KEY, each with no
other effect than on STATUS and CTRL. -/
def Obligations.DecryptRefusals : Prop :=
  ∀ (len : BitVec 8) (s : State), s.status.busy = false → (len ≠ 16 ∨ s.status.keyValid = false) →
    exec (.decrypt len) s = .next { s with
      ctrl := (0 : BitVec 16) ++ len ++ (0x03 : BitVec 8)
      status := { s.status with done := false, err := true, errcode := if len = 16 then 3 else 1 } }

/-- A word that selects no command, accepted, records ILLEGAL_CMD and changes nothing but STATUS and CTRL
(spec/30_encoding.md R75, spec/40_control.md R90, spec/60_exceptions.md R182); the event is consumed and the write answered
(logs 3, 4). -/
def Obligations.IllegalWordRaisesIllegalCmd : Prop :=
  ∀ (s : State) (m : Nat) (v : Word) (rest : List Event),
    s.events = .host m (.write (windowBase s.params + 0x00) (.single 4) v) :: rest →
    s.status.busy = false → 3 < (v &&& 0xFFFF00FF).toNat →
    step s = .next { s with
      events := rest, replies := { master := m, response := .written } :: s.replies, ctrl := v
      status := { s.status with done := false, err := true, errcode := 4 } }

/-- R96: any word written to CTRL while BUSY = 1 is discarded and records BUSY_VIOLATION, changing nothing else (the event is
consumed and the write answered, logs 3 and 4); any command's meaning does the same; a second such write leaves the same
STATUS; and the completion that follows sets DONE and leaves ERR = 1 and ERRCODE = 5. -/
def Obligations.BusyWriteRefused : Prop :=
  (∀ (s : State) (m : Nat) (v : Word) (rest : List Event),
    s.events = .host m (.write (windowBase s.params + 0x00) (.single 4) v) :: rest → s.status.busy = true →
    step s = .next { s with
      events := rest, replies := { master := m, response := .written } :: s.replies
      status := { s.status with err := true, errcode := 5 } }) ∧
  (∀ (i : Instr) (s : State), s.status.busy = true →
    exec i s = .next { s with status := { s.status with err := true, errcode := 5 } }) ∧
  (∀ (i j : Instr) (s t : State), s.status.busy = true → exec i s = .next t → exec j t = .next t) ∧
  (∀ (i : Instr) (s t : State), s.status.busy = true → s.phase ≠ .idle → exec i s = .next t →
    (seqStep t).status.done = true ∧ (seqStep t).status.err = true ∧ (seqStep t).status.errcode = 5)

/-- R185: the code a CTRL write leaves, whatever the word and the state: BUSY_VIOLATION, else ILLEGAL_CMD, else the length
error of the command, else NO_KEY, else none. -/
def Obligations.ErrorPriority : Prop :=
  ∀ (s : State) (m : Nat) (v : Word) (rest : List Event),
    s.events = .host m (.write (windowBase s.params + 0x00) (.single 4) v) :: rest →
    ∃ t, step s = .next t ∧
      t.status.errcode =
        if s.status.busy = true then 5
        else if 3 < (v &&& 0xFFFF00FF).toNat then 4
        else if v.extractLsb' 0 4 = 0 then 0
        else if v.extractLsb' 8 8 ≠ 16 then (if v.extractLsb' 0 4 = 1 then 2 else 1)
        else if v.extractLsb' 0 4 ≠ 1 ∧ s.status.keyValid = false then 3
        else 0

/-- An accepted command ends its acceptance in exactly one of three ways: failed with BUSY 0, finished (NOP only), or busy
with a phase other than IDLE (spec/40_control.md R91). -/
def Obligations.AcceptedCommandEndsOneWay : Prop :=
  ∀ (i : Instr) (s : State), s.status.busy = false → s.phase = .idle → ∃ t, exec i s = .next t ∧
    ((t.status.err = true ∧ t.status.done = false ∧ t.status.busy = false ∧ t.phase = .idle) ∨
     (i.kind = .nop ∧ t.status.err = false ∧ t.status.done = true ∧ t.status.busy = false ∧ t.phase = .idle) ∨
     (i.kind ≠ .nop ∧ i.len = 16 ∧ t.status.err = false ∧ t.status.done = false ∧ t.status.busy = true ∧ t.phase ≠ .idle))

/-- No command stops the machine, and what no command changes in its acceptance step: KEY, DIN, DOUT, S, the working state,
the configuration, the pending events, the replies and the draws; the latches change only in a KEY_EXPAND (KL) or a block
command (XL) that goes busy (spec/10_state.md R35, spec/60_exceptions.md R182, R187). -/
def Obligations.CommandFrame : Prop :=
  ∀ (i : Instr) (s : State), ∃ t, exec i s = .next t ∧
    t.key = s.key ∧ t.din = s.din ∧ t.dout = s.dout ∧ t.roundKeys = s.roundKeys ∧ t.work = s.work ∧ t.ks = s.ks ∧
    t.params = s.params ∧ t.events = s.events ∧ t.replies = s.replies ∧ t.draws = s.draws ∧
    (t.kl = s.kl ∨ (i = .keyExpand 16 ∧ s.status.busy = false ∧ t.kl = latchBytes s.key)) ∧
    (t.xl = s.xl ∨ ((i = .encrypt 16 ∨ i = .decrypt 16) ∧ s.status.busy = false ∧ s.status.keyValid = true ∧
      t.xl = latchBytes s.din))

/-! Completion, reset and the bus. -/

/-- R97: the completion step of SEQ, phase by phase, as an event of its own. With no command in flight it is not enabled and
only the event is consumed (log 3). What the working words and the key-schedule working state hold afterwards is not stated
(log 7). -/
def Obligations.CompletionStep : Prop :=
  ∀ (s : State) (rest : List Event), s.events = .seqComplete :: rest →
    (s.phase = .idle → step s = .next { s with events := rest }) ∧
    (s.phase = .keyx → ∃ ks, step s = .next { s with
      events := rest, roundKeys := keyExpand s.params.wordOrder s.kl, ks := ks, phase := .idle
      status := { s.status with busy := false, done := true, keyValid := true } }) ∧
    (s.phase = .enc → ∃ work, step s = .next { s with
      events := rest, dout := packBytes (rc6Encrypt s.params.wordOrder s.roundKeys s.xl), work := work, phase := .idle
      status := { s.status with busy := false, done := true } }) ∧
    (s.phase = .dec → ∃ work, step s = .next { s with
      events := rest, dout := packBytes (rc6Decrypt s.params.wordOrder s.roundKeys s.xl), work := work, phase := .idle
      status := { s.status with busy := false, done := true } })

/-- Reset, as an event: CTRL, STATUS, KEY, DIN and DOUT are zero and the phase is IDLE whatever was in flight, and no
completion follows (spec/10_state.md R38, spec/70_reset_and_hazards.md R200, R201). That the later events, the replies and
the configuration stay is the model's choice: logs 3, 4 and 2. -/
def Obligations.ResetClearsTheCore : Prop :=
  ∀ (s : State) (rest : List Event), s.events = .reset :: rest → ∃ t, step s = .next t ∧
    t.ctrl = 0 ∧ t.status.word = 0 ∧ t.key = #v[0, 0, 0, 0] ∧ t.din = #v[0, 0, 0, 0] ∧ t.dout = #v[0, 0, 0, 0] ∧
    t.phase = .idle ∧ seqStep t = t ∧ t.params = s.params ∧ t.events = rest ∧ t.replies = s.replies

/-- The state after reset: the values R38 gives, and PARAM reads its constant (R27). The word order is the default of
spec/00_scope.md R7; that State holds it is log 2. -/
def Obligations.StateAfterReset : Prop :=
  State.reset.ctrl = 0 ∧ State.reset.status.word = 0 ∧ State.reset.key = #v[0, 0, 0, 0] ∧
  State.reset.din = #v[0, 0, 0, 0] ∧ State.reset.dout = #v[0, 0, 0, 0] ∧ State.reset.phase = .idle ∧
  (readReg .param State.reset).1 = 0x20141010 ∧ State.reset.params.wordOrder = .le

/-- R56: what a legal read of each offset returns, and that it changes no state of the core: only the event is consumed and
the answer recorded (logs 3, 4). DOUT while BUSY = 1 returns some word, and the count of draws advances (log 5). -/
def Obligations.BusReadReturns : Prop :=
  ∀ (s : State) (m off : Nat) (rest : List Event),
    s.events = .host m (.read (windowBase s.params + off) (.single 4)) :: rest →
    let answered (r : Response) : State := { s with events := rest, replies := { master := m, response := r } :: s.replies }
    (off = 0x00 → step s = .next (answered (.data s.ctrl))) ∧
    (off = 0x04 → step s = .next (answered (.data s.status.word))) ∧
    (off = 0x08 → step s = .next (answered (.data 0x20141010))) ∧
    (off = 0x0C → step s = .next (answered (.busError (windowBase s.params + 0x0C)))) ∧
    (∀ n : Fin 4, off = 0x10 + 4 * n.val → step s = .next (answered (.data 0))) ∧
    (∀ n : Fin 4, off = 0x20 + 4 * n.val → step s = .next (answered (.data s.din[n]))) ∧
    (∀ n : Fin 4, off = 0x30 + 4 * n.val → s.status.busy = false → step s = .next (answered (.data s.dout[n]))) ∧
    (∀ n : Fin 4, off = 0x30 + 4 * n.val → s.status.busy = true →
      ∃ v, step s = .next { answered (.data v) with draws := s.draws + 1 })

/-- What a legal write of each offset but CTRL does: KEYn and DINn take the word whatever BUSY is, writes to STATUS, PARAM and
DOUT are ignored without an error, 0x0C answers BusError; nothing else of the core changes (spec/20_memory.md R57,
spec/10_state.md R29, R30). -/
def Obligations.BusWriteEffects : Prop :=
  ∀ (s : State) (m off : Nat) (v : Word) (rest : List Event),
    s.events = .host m (.write (windowBase s.params + off) (.single 4) v) :: rest →
    let answered (r : Response) : State := { s with events := rest, replies := { master := m, response := r } :: s.replies }
    (off = 0x04 ∨ off = 0x08 → step s = .next (answered .written)) ∧
    (off = 0x0C → step s = .next (answered (.busError (windowBase s.params + 0x0C)))) ∧
    (∀ n : Fin 4, off = 0x10 + 4 * n.val → step s = .next { answered .written with key := s.key.set n v }) ∧
    (∀ n : Fin 4, off = 0x20 + 4 * n.val → step s = .next { answered .written with din := s.din.set n v }) ∧
    (∀ n : Fin 4, off = 0x30 + 4 * n.val → step s = .next (answered .written))

/-- R58: an access in the window of another shape than one word, at an offset that is not a multiple of 4, or at 0x0C, is
answered with BusError to the issuing host, recorded as that host's fault (log 4), and changes no core state. -/
def Obligations.BusErrorChangesNothing : Prop :=
  ∀ (s : State) (m off : Nat) (shape : Transfer) (rest : List Event) (a : Access),
    off < 0x40 → (shape ≠ .single 4 ∨ off % 4 ≠ 0 ∨ off = 0x0C) →
    (a = .read (windowBase s.params + off) shape ∨ ∃ v, a = .write (windowBase s.params + off) shape v) →
    s.events = .host m a :: rest →
    step s = .next { s with
      events := rest, replies := { master := m, response := .busError (windowBase s.params + off) } :: s.replies }

/-- An access outside the window is not the core's: the step stops with the model's fault for it (spec/20_memory.md R51;
log 6). -/
def Obligations.OutsideWindowFaults : Prop :=
  ∀ (s : State) (m : Nat) (a : Access) (rest : List Event),
    s.events = .host m a :: rest →
    (a.addr < windowBase s.params ∨ windowBase s.params + 0x40 ≤ a.addr) → step s = .fault (.outsideWindow a.addr)

/-- The register map of R22: which offset reaches which register, and no other offset reaches one. -/
def Obligations.RegisterMap : Prop :=
  ∀ (off : Nat) (r : Reg), regAt off = some r ↔
    (off = 0x00 ∧ r = .ctrl) ∨ (off = 0x04 ∧ r = .status) ∨ (off = 0x08 ∧ r = .param) ∨
    (∃ n : Fin 4, off = 0x10 + 4 * n.val ∧ r = .key n) ∨ (∃ n : Fin 4, off = 0x20 + 4 * n.val ∧ r = .din n) ∨
    (∃ n : Fin 4, off = 0x30 + 4 * n.val ∧ r = .dout n)

/-- R27: the fields of PARAM. -/
def Obligations.ParamFields : Prop :=
  paramValue = 0x20141010 ∧ paramValue.extractLsb' 0 8 = 16 ∧ paramValue.extractLsb' 8 8 = 16 ∧
  paramValue.extractLsb' 16 8 = 20 ∧ paramValue.extractLsb' 24 8 = 32

/-- The bits of STATUS (spec/10_state.md R24). -/
def Obligations.StatusBits : Prop :=
  ∀ st : Status,
    st.word.getLsbD 0 = st.busy ∧ st.word.getLsbD 1 = st.done ∧ st.word.getLsbD 2 = st.err ∧
    st.word.getLsbD 3 = st.keyValid ∧ st.word.extractLsb' 4 4 = st.errcode ∧ st.word.extractLsb' 8 24 = 0

/-! Rules of the whole machine. -/

/-- The invariant holds after reset. -/
def Obligations.InvariantAfterReset : Prop := Invariant State.reset

/-- Every step keeps the invariant: BUSY with the phase (spec/10_state.md R36), S the schedule of KL whenever KEY_VALID = 1
(R39), ERRCODE at most 5 and 0 exactly when ERR = 0 (R24, R180), DONE beside ERR only after a refused CTRL write (R26), a key
under every block command in flight (R143), CTRL the command in flight (R23). -/
def Obligations.StepKeepsInvariant : Prop :=
  ∀ s t : State, Invariant s → step s = .next t → Invariant t

/-- R31: DOUT is written only by the completion of ENCRYPT or DECRYPT and by reset. -/
def Obligations.DoutWrittenOnlyByCompletion : Prop :=
  ∀ s t : State, step s = .next t → t.dout ≠ s.dout → nextIsReset s ∨ nextCompletes .enc s ∨ nextCompletes .dec s

/-- The round-key file is written only by the completion of KEY_EXPAND and by reset (spec/10_state.md R32; that the model's
reset writes it rests on log 1). -/
def Obligations.RoundKeysWrittenOnlyByKeyExpand : Prop :=
  ∀ s t : State, step s = .next t → t.roundKeys ≠ s.roundKeys → nextIsReset s ∨ nextCompletes .keyx s

/-- KEY_VALID is set only by the completion of KEY_EXPAND, and cleared only by reset or an accepted KEY_EXPAND word, of any
LEN (spec/10_state.md R28). -/
def Obligations.KeyValidLifeCycle : Prop :=
  ∀ s t : State, step s = .next t →
    (s.status.keyValid = false → t.status.keyValid = true → nextCompletes .keyx s) ∧
    (s.status.keyValid = true → t.status.keyValid = false →
      nextIsReset s ∨ ∃ v, nextAccepts v s ∧ v &&& 0xFFFF00FF = 1)

/-- ERR is cleared only by the next accepted command or by reset (spec/60_exceptions.md R188); it is set only by an accepted
word or a CTRL write refused while busy (spec/10_state.md R26). -/
def Obligations.ErrLifeCycle : Prop :=
  ∀ s t : State, step s = .next t →
    (s.status.err = true → t.status.err = false → nextIsReset s ∨ ∃ v, nextAccepts v s) ∧
    (s.status.err = false → t.status.err = true → nextRefuses s ∨ ∃ v, nextAccepts v s)

/-- R25: BUSY is set only by the acceptance of a KEY_EXPAND, ENCRYPT or DECRYPT that passes every check, and cleared only by
the completion or by reset. -/
def Obligations.BusyLifeCycle : Prop :=
  ∀ s t : State, Invariant s → step s = .next t →
    (s.status.busy = false → t.status.busy = true →
      nextAccepts 0x00001001 s ∨ ((nextAccepts 0x00001002 s ∨ nextAccepts 0x00001003 s) ∧ s.status.keyValid = true)) ∧
    (s.status.busy = true → t.status.busy = false → nextIsReset s ∨ nextCompletes s.phase s)

/-- CTRL changes only to an accepted word, or to zero at reset: it reads as the last command word accepted
(spec/10_state.md R23). -/
def Obligations.CtrlHoldsLastAccepted : Prop :=
  ∀ s t : State, step s = .next t →
    (∀ v, nextAccepts v s → t.ctrl = v) ∧ (nextIsReset s → t.ctrl = 0) ∧
    (t.ctrl ≠ s.ctrl → nextIsReset s ∨ ∃ v, nextAccepts v s)

/-- KEY0..KEY3 and DIN0..DIN3 change only by a host's write to the register, or to zero at reset (spec/10_state.md R29, R30).
-/
def Obligations.OperandRegistersWrittenOnlyByHost : Prop :=
  ∀ s t : State, step s = .next t →
    (t.key ≠ s.key → nextIsReset s ∨ ∃ n v, nextWrites (.key n) v s ∧ t.key = s.key.set n v) ∧
    (t.din ≠ s.din → nextIsReset s ∨ ∃ n v, nextWrites (.din n) v s ∧ t.din = s.din.set n v)

/-- No step changes BASE or WORD_ORDER: the order can be neither read nor switched at run time (spec/20_memory.md R54;
that they are fields of State is log 2). -/
def Obligations.ConfigurationIsFixed : Prop :=
  ∀ s t : State, step s = .next t → t.params = s.params

/-- A command in flight ends only by its completion or by reset: no other step changes the phase, the latches, S or BUSY
(spec/40_control.md R99, spec/70_reset_and_hazards.md R201). -/
def Obligations.NoCancellation : Prop :=
  ∀ s t : State, Invariant s → s.phase ≠ .idle → step s = .next t →
    nextIsReset s ∨ nextCompletes s.phase s ∨
    (t.phase = s.phase ∧ t.status.busy = true ∧ t.kl = s.kl ∧ t.xl = s.xl ∧ t.roundKeys = s.roundKeys)

/-- The machine stops on nothing but an access outside the window: the core raises no error that ends it, in any state
(spec/40_control.md R98, spec/60_exceptions.md R187), and a BusError changes nothing of it (spec/20_memory.md R58). The
model's choices in this: the stop outside the window (log 6), that the machine goes on after a BusError, recorded for its
host (log 4), and that with no event pending it steps, idle or not (log 3). -/
def Obligations.OnlyForeignAccessStops : Prop :=
  ∀ s : State, (∀ e, s.events.head? = some e → e.concernsCore s.params = true) → ∃ t, step s = .next t

/-- A command in flight does not stay in flight: with only events that concern the core pending, some step at most one more
than their number leaves the phase IDLE (spec/40_control.md R100). That SEQ steps when no event is pending is how the model
expresses weak fairness (log 3). -/
def Obligations.CommandInFlightCompletes : Prop :=
  ∀ s : State, (∀ e ∈ s.events, e.concernsCore s.params = true) →
    ∃ n t, n ≤ s.events.length + 1 ∧ Host.Core.run Sys2Proof.core n s = .next t ∧ t.phase = .idle

/-- Whatever accesses hosts make while a command is in flight, among them CTRL writes, KEY and DIN writes, the completion
gives the same result as without them (spec/40_control.md R93, R96, spec/10_state.md R35, spec/70_reset_and_hazards.md R208,
spec/41_key_schedule.md R119). -/
def Obligations.HostAccessesDoNotReachCommandInFlight : Prop :=
  ∀ (s t : State) (es : List Event), s.status.busy = true → s.phase ≠ .idle →
    (∀ e ∈ es, ∃ m a, e = .host m a) → runEvents es s = .next t →
    t.phase = s.phase ∧ (seqStep t).roundKeys = (seqStep s).roundKeys ∧ (seqStep t).dout = (seqStep s).dout ∧
    (seqStep t).status.keyValid = (seqStep s).status.keyValid ∧ (seqStep t).status.busy = false ∧
    (seqStep t).status.done = true

/-- Hidden state that nothing makes live cannot be told by a host, in runs of any length: S while KEY_VALID = 0, the latches
while no command reads them, and the working state (spec/10_state.md R32 to R35, R37). So nothing rests on the values the
model gives them at reset (log 1). -/
def Obligations.DeadHiddenStateIsNotObservable : Prop :=
  ∀ (n : Nat) (s t : State), Invariant s → HiddenAlike s t →
    (∀ s', Host.Core.run Sys2Proof.core n s = .next s' →
      ∃ t', Host.Core.run Sys2Proof.core n t = .next t' ∧ HiddenAlike s' t') ∧
    (∀ r, Host.Core.run Sys2Proof.core n s = .fault r → Host.Core.run Sys2Proof.core n t = .fault r)

/-! The cipher. -/

/-- R11: rotations by any amount: by its remainder mod 32, by the five low bits of a word amount, and inverse to each
other. -/
def Obligations.RotationRules : Prop :=
  ∀ (x : Word) (n : Nat),
    rotl x n = x.rotateLeft (n % 32) ∧ rotr x n = x.rotateRight (n % 32) ∧ rotr (rotl x n) n = x ∧
    rotl (rotr x n) n = x ∧ ∀ y : Word, rotl x y.toNat = rotl x (lg5 y).toNat

/-- Multiplying as signed two's-complement integers gives the same quadratic function, and the values R130 lists
(spec/42_block_cipher.md R130). -/
def Obligations.QuadraticFunction : Prop :=
  (∀ x : Word, quadratic x = (BitVec.ofInt 32 (x.toInt * (2 * x.toInt + 1))).rotateLeft 5) ∧
  quadratic 0 = 0 ∧ quadratic 1 = 0x60 ∧ quadratic 0xFFFFFFFF = 0x20 ∧ quadratic 0x80000000 = 0x10

/-- The packing of bytes in registers is one to one: reading 16 bytes from four registers and packing them back are inverse,
and byte k is bits [8(k mod 4)+7 : 8(k mod 4)] of register k div 4 (spec/20_memory.md R53). -/
def Obligations.BytePacking : Prop :=
  (∀ q : Quad, packBytes (latchBytes q) = q) ∧ (∀ b : Block, latchBytes (packBytes b) = b) ∧
  (∀ (q : Quad) (k : Fin 16), (latchBytes q)[k] = (q[k.val / 4]'(by omega)).extractLsb' (8 * (k.val % 4)) 8)

/-- Loading words from bytes and storing them are inverse under either word order, and under LE the words are the registers:
DIN0 is word A and so on (spec/20_memory.md R54). -/
def Obligations.WordOrderRules : Prop :=
  (∀ (o : WordOrder) (x : Block), storeWords o (loadWord o x 0) (loadWord o x 1) (loadWord o x 2) (loadWord o x 3) = x) ∧
  (∀ (o : WordOrder) (a b c d : Word), let y := storeWords o a b c d
    loadWord o y 0 = a ∧ loadWord o y 1 = b ∧ loadWord o y 2 = c ∧ loadWord o y 3 = d) ∧
  (∀ (q : Quad) (k : Fin 4), loadWord .le (latchBytes q) k = q[k]) ∧
  (∀ a b c d : Word, packBytes (storeWords .le a b c d) = #v[a, b, c, d])

/-- R153: for every schedule and every block, under either word order, RC6_Decrypt inverts RC6_Encrypt and the other way
round; hence, on the machine, ENCRYPT followed by DECRYPT of its DOUT under the same schedule returns the original DIN. -/
def Obligations.DecryptInvertsEncrypt : Prop :=
  (∀ (o : WordOrder) (s : RoundKeys) (x : Block),
    rc6Decrypt o s (rc6Encrypt o s x) = x ∧ rc6Encrypt o s (rc6Decrypt o s x) = x) ∧
  (∀ s : State, s.status.busy = false → s.status.keyValid = true →
    ∃ t u, exec (.encrypt 16) s = .next t ∧
      exec (.decrypt 16) { seqStep t with din := (seqStep t).dout } = .next u ∧ (seqStep u).dout = s.din)

/-- R145: the published known-answer vectors, which the rules reproduce under LE, and their values under BE. -/
def Obligations.KnownAnswers : Prop :=
  let key2 : Block := #v[0x01, 0x23, 0x45, 0x67, 0x89, 0xab, 0xcd, 0xef, 0x01, 0x12, 0x23, 0x34, 0x45, 0x56, 0x67, 0x78]
  let text2 : Block := #v[0x02, 0x13, 0x24, 0x35, 0x46, 0x57, 0x68, 0x79, 0x8a, 0x9b, 0xac, 0xbd, 0xce, 0xdf, 0xe0, 0xf1]
  let zero : Block := #v[0, 0, 0, 0, 0, 0, 0, 0, 0, 0, 0, 0, 0, 0, 0, 0]
  rc6Encrypt .le (keyExpand .le zero) zero =
    #v[0x8f, 0xc3, 0xa5, 0x36, 0x56, 0xb1, 0xf7, 0x78, 0xc1, 0x29, 0xdf, 0x4e, 0x98, 0x48, 0xa4, 0x1e] ∧
  rc6Encrypt .le (keyExpand .le key2) text2 =
    #v[0x52, 0x4e, 0x19, 0x2f, 0x47, 0x15, 0xc6, 0x23, 0x1f, 0x51, 0xf6, 0x36, 0x7e, 0xa4, 0x3f, 0x18] ∧
  rc6Encrypt .be (keyExpand .be zero) zero =
    #v[0x36, 0xa5, 0xc3, 0x8f, 0x78, 0xf7, 0xb1, 0x56, 0x4e, 0xdf, 0x29, 0xc1, 0x1e, 0xa4, 0x48, 0x98] ∧
  rc6Encrypt .be (keyExpand .be key2) text2 =
    #v[0x12, 0xff, 0xbe, 0x50, 0xd9, 0x16, 0xdc, 0x1d, 0xbf, 0x1f, 0x62, 0x4d, 0x2d, 0xd2, 0x07, 0x1f]

/-- R120: the first and last round keys of the zero key, whose schedule is the same under either word order; and the array
the mixing starts from is seeded with P32 and steps of Q32 (spec/41_key_schedule.md R113, R114). -/
def Obligations.ZeroKeySchedule : Prop :=
  let zero : Block := #v[0, 0, 0, 0, 0, 0, 0, 0, 0, 0, 0, 0, 0, 0, 0, 0]
  let s := keyExpand .le zero
  s[0] = 0x2A66311C ∧ s[1] = 0x9B17852D ∧ s[2] = 0x8108B207 ∧ s[3] = 0x39D14185 ∧
  s[40] = 0x55FCC1B3 ∧ s[41] = 0xC5BD8DB7 ∧ s[42] = 0x05B4016A ∧ s[43] = 0x4B38AC83 ∧
  keyExpand .be zero = keyExpand .le zero ∧
  ∀ i : Fin 44, seededKeys[i] = 0xB7E15163 + BitVec.ofNat 32 i.val * 0x9E3779B9

/-! Commands from their CTRL write to their result. -/

/-- KEY_EXPAND, with any host accesses between its acceptance and its completion, leaves the schedule of the key that
KEY0..KEY3 held at its acceptance, and KEY_VALID = 1 (spec/41_key_schedule.md R111, R116, R118, R119). -/
def Obligations.KeyExpandDeliversSchedule : Prop :=
  ∀ (s t : State) (es : List Event), s.status.busy = false → (∀ e ∈ es, ∃ m a, e = .host m a) →
    ∃ u, exec (.keyExpand 16) s = .next u ∧ (runEvents es u = .next t →
      (seqStep t).roundKeys = keyExpand s.params.wordOrder (latchBytes s.key) ∧ (seqStep t).status.keyValid = true ∧
      (seqStep t).status.busy = false ∧ (seqStep t).phase = .idle)

/-- ENCRYPT and DECRYPT, with any host accesses between acceptance and completion, leave in DOUT the transform of the block
that DIN0..DIN3 held at the acceptance, under the schedule in S (spec/42_block_cipher.md R140, R141, R150, R151,
spec/40_control.md R93). -/
def Obligations.BlockCommandDeliversTransform : Prop :=
  ∀ (s t : State) (es : List Event), s.status.busy = false → s.status.keyValid = true →
    (∀ e ∈ es, ∃ m a, e = .host m a) →
    (∃ u, exec (.encrypt 16) s = .next u ∧ (runEvents es u = .next t →
      (seqStep t).dout = packBytes (rc6Encrypt s.params.wordOrder s.roundKeys (latchBytes s.din)))) ∧
    (∃ u, exec (.decrypt 16) s = .next u ∧ (runEvents es u = .next t →
      (seqStep t).dout = packBytes (rc6Decrypt s.params.wordOrder s.roundKeys (latchBytes s.din))))

/-! Host programs. -/

/-- The per-block protocol of R205 run by a host alone on an idle, keyed core: whatever number of accesses SEQ lets pass
before the completion, the script ends, CHECK reads 0x0000000A, and the four words read are the encryption of the block
written (spec/20_memory.md R61, spec/30_encoding.md R76, R77, spec/70_reset_and_hazards.md R215). The script's conventions
are log 10, and that the POLL ends rests on the fairness of log 3. -/
def Obligations.PollingHostReadsCiphertext : Prop :=
  ∀ (s : State) (m n : Nat) (d0 d1 d2 d3 : Word), s.status.busy = false → s.phase = .idle → s.status.keyValid = true →
    let σ := runScript m (encryptScript (.imm d0) (.imm d1) (.imm d2) (.imm d3) 0 1 2 3 4)
      { core := s, vars := [], others := List.replicate n [], halt := none }
    let y := packBytes (rc6Encrypt s.params.wordOrder s.roundKeys (latchBytes #v[d0, d1, d2, d3]))
    σ.halt = none ∧ σ.var? 0 = some 0x0000000A ∧
    σ.var? 1 = some y[0] ∧ σ.var? 2 = some y[1] ∧ σ.var? 3 = some y[2] ∧ σ.var? 4 = some y[3]

/-- The same protocol with DECRYPT: CHECK reads 0x0000000A and the four words read are the decryption of the block written
(spec/20_memory.md R61, spec/30_encoding.md R76, R77, spec/70_reset_and_hazards.md R205, R215). The script's conventions are
log 10, and that the POLL ends rests on the fairness of log 3. -/
def Obligations.PollingHostReadsPlaintext : Prop :=
  ∀ (s : State) (m n : Nat) (d0 d1 d2 d3 : Word), s.status.busy = false → s.phase = .idle → s.status.keyValid = true →
    let σ := runScript m (decryptScript (.imm d0) (.imm d1) (.imm d2) (.imm d3) 0 1 2 3 4) (aloneSession s [] n)
    let x := packBytes (rc6Decrypt s.params.wordOrder s.roundKeys (latchBytes #v[d0, d1, d2, d3]))
    σ.halt = none ∧ σ.var? 0 = some 0x0000000A ∧
    σ.var? 1 = some x[0] ∧ σ.var? 2 = some x[1] ∧ σ.var? 3 = some x[2] ∧ σ.var? 4 = some x[3]

/-- A mode's call, made block by block on an idle, keyed core by a master alone on the bus, gives what the mode's formulas
give with E and D the core's transforms; a CTR buffer over the limit is refused (spec/43_host_usage.md R162, R164, R165,
spec/70_reset_and_hazards.md R205). The open RD_IN and PCBC_INIT are log 9, the script's conventions log 10, and that every
WAIT ends rests on the fairness of log 3. -/
def Obligations.ModeCallRunsOnTheCore : Prop :=
  ∀ (d : Direction) (mode : ChainMode) (iv : Block) (blocks : List Block) (s : State) (vs : List (Nat × Word)) (m n : Nat),
    s.status.busy = false → s.phase = .idle → s.status.keyValid = true →
    (modeCall m d mode iv blocks (aloneSession s vs n)).2 =
      match (match d with
        | .encrypt => modeEncrypt mode (coreOps s.params.wordOrder s.roundKeys) iv blocks
        | .decrypt => modeDecrypt mode (coreOps s.params.wordOrder s.roundKeys) iv blocks) with
      | some out => .ok out
      | none => .error (.refused (.counterLimit blocks.length))

/-- Whole-call failure (spec/43_host_usage.md R171). Whatever other agents do between the accesses, a call that puts out its
buffer has checked STATUS after the command of every block, found ERR = 0 each time, got no BusError, and puts out as many
blocks as it was given. And on an idle core without a key a call of at least one block puts out nothing: it is reported as
OperationFailed, its cause the core's NO_KEY (R172). How a call is recorded is log 12, the script's conventions log 10. -/
def Obligations.CallFailsWhole : Prop :=
  (∀ (m : Nat) (d : Direction) (mode : ChainMode) (iv : Block) (blocks out : List Block) (σ : Session) (c : Call),
    modeCall m d mode iv blocks σ = (c, .ok out) →
    c.checks.length = blocks.length ∧ (∀ hs ∈ c.checks, checkErr hs = false) ∧ c.session.halt = none ∧
    out.length = blocks.length) ∧
  (∀ (m n : Nat) (d : Direction) (mode : ChainMode) (iv : Block) (blocks : List Block) (s : State) (vs : List (Nat × Word)),
    s.status.busy = false → s.phase = .idle → s.status.keyValid = false → blocks ≠ [] →
    modeAllows mode blocks.length = true →
    (modeCall m d mode iv blocks (aloneSession s vs n)).2 =
      .error (.operationFailed (.operationFailed .noKey)))

/-- R172: what a host with typed errors reports for each code a CHECK shows, and for a BusError. Without ERR there is
nothing to report. -/
def Obligations.HostErrorsAreTyped : Prop :=
  ∀ (st : Status) (addr : Nat),
    (st.err = false → checkFailure st.word = none) ∧
    (st.err = true → st.errcode = 2 → checkFailure st.word = some (.error .configurationError)) ∧
    (st.err = true → st.errcode = 1 → checkFailure st.word = some (.error .invalidInput)) ∧
    (st.err = true → st.errcode = 3 → checkFailure st.word = some (.error (.operationFailed .noKey))) ∧
    (st.err = true → st.errcode = 4 → checkFailure st.word = some (.error (.operationFailed .illegalCmd))) ∧
    (st.err = true → st.errcode = 5 → checkFailure st.word = some (.error (.operationFailed .busyViolation))) ∧
    haltFailure (.busError addr) = .error .operationFailedBus

/-- The counter block in DIN terms: DIN0..DIN2 are the IV's words and DIN3 is the word R164 gives, for every index a CTR call
may use (spec/43_host_usage.md R164, R165). -/
def Obligations.CounterBlockInDin : Prop :=
  ∀ (iv : Block) (i : Nat), i < 2 ^ 32 →
    packBytes (counterBlock iv i) = #v[(packBytes iv)[0], (packBytes iv)[1], (packBytes iv)[2], counterDin3 i]

/-- Decryption in every mode inverts encryption in it, for any block operations of which D inverts E, whatever the open PCBC
start values and Random-Delta input are (spec/43_host_usage.md R162). -/
def Obligations.ChainingModesInvert : Prop :=
  ∀ (m : ChainMode) (c : BlockOps) (iv : Block) (ps cs : List Block), (∀ x, c.d (c.e x) = x) →
    modeEncrypt m c iv ps = some cs → modeDecrypt m c iv cs = some ps

/-- CBC decryption of a block reads blocks of the input buffer only: output block i is D(C_i) ^ C_{i-1}, with C_{-1} = IV, so
the blocks may be sent to the core in any order (spec/43_host_usage.md R162, R163, spec/90_conflicts.md C2). -/
def Obligations.CbcDecryptIsBlockwise : Prop :=
  ∀ (c : BlockOps) (iv : Block) (cs : List Block) (i : Nat) (h : i < cs.length),
    (cbcDecrypt c iv cs)[i]? = some (xorBlock (c.d cs[i]) (if i = 0 then iv else cs.getD (i - 1) iv))
end

