-- ==== Sys2Proof/Laws/Encoding.lean ====
section
/-! SUPPORT. The fields of a command word built by `commandWord`. -/

namespace Sys2Proof

/-- Every bit of a command word (spec/30_encoding.md R70). -/
theorem commandWord_getLsbD (len : BitVec 8) (cmd : BitVec 4) (i : Nat) :
    (commandWord len cmd).getLsbD i =
      if i < 4 then cmd.getLsbD i else if i < 8 then false else if i < 16 then len.getLsbD (i - 8) else false := by
  show ((0 : BitVec 16) ++ len ++ (0 : BitVec 4) ++ cmd : BitVec (16 + 8 + 4 + 4)).getLsbD i = _
  simp only [BitVec.getLsbD_append]
  by_cases h1 : i < 4
  · simp [h1]
  by_cases h2 : i < 8
  · have : i - 4 < 4 := by omega
    simp [h1, h2, this]
  have h2' : ¬ i - 4 < 4 := by omega
  by_cases h3 : i < 16
  · have : i - 4 - 4 < 8 := by omega
    simp [h1, h2, h2', h3, this]; congr 1
  · have : ¬ i - 4 - 4 < 8 := by omega
    simp [h1, h2, h2', h3, this]

@[simp] theorem cmdField_commandWord (len : BitVec 8) (cmd : BitVec 4) : cmdField (commandWord len cmd) = cmd := by
  apply BitVec.eq_of_getLsbD_eq
  intro i hi
  simp [cmdField, commandWord_getLsbD, hi]

@[simp] theorem rsv0Field_commandWord (len : BitVec 8) (cmd : BitVec 4) : rsv0Field (commandWord len cmd) = 0 := by
  apply BitVec.eq_of_getLsbD_eq
  intro i hi
  simp [rsv0Field, commandWord_getLsbD, hi, show 4 + i < 8 by omega]

@[simp] theorem lenField_commandWord (len : BitVec 8) (cmd : BitVec 4) : lenField (commandWord len cmd) = len := by
  apply BitVec.eq_of_getLsbD_eq
  intro i hi
  simp [lenField, commandWord_getLsbD, hi, show ¬ 8 + i < 4 by omega, show 8 + i < 16 by omega]

@[simp] theorem rsv1Field_commandWord (len : BitVec 8) (cmd : BitVec 4) : rsv1Field (commandWord len cmd) = 0 := by
  apply BitVec.eq_of_getLsbD_eq
  intro i hi
  simp [rsv1Field, commandWord_getLsbD, hi, show ¬ 16 + i < 4 by omega, show ¬ 16 + i < 8 by omega]

/-- A word is its four fields side by side (spec/30_encoding.md R70). -/
theorem word_of_fields (v : Word) : rsv1Field v ++ lenField v ++ rsv0Field v ++ cmdField v = v := by
  apply BitVec.eq_of_getLsbD_eq
  intro i hi
  simp only [rsv1Field, lenField, rsv0Field, cmdField, BitVec.getLsbD_append, BitVec.getLsbD_extractLsb']
  by_cases h1 : i < 4
  · simp [h1]
  by_cases h2 : i - 4 < 4
  · simp [h1, h2]; congr 1; omega
  by_cases h3 : i - 4 - 4 < 8
  · simp [h1, h2, h3]; congr 1; omega
  · have : i - 4 - 4 - 8 < 16 := by omega
    simp [h1, h2, h3, this]; congr 1; omega

end Sys2Proof
end

