-- ==== Sys2Proof/Laws/State.lean ====
section
/-! SUPPORT. What each named update of State does to each field: one lemma per field per update, true by rfl. -/

namespace Sys2Proof.Machine

variable (s : State)

section

variable (v : Word)

@[simp] theorem State.withCtrl_ctrl : (s.withCtrl v).ctrl = v := rfl
@[simp] theorem State.withCtrl_status : (s.withCtrl v).status = s.status := rfl
@[simp] theorem State.withCtrl_key : (s.withCtrl v).key = s.key := rfl
@[simp] theorem State.withCtrl_din : (s.withCtrl v).din = s.din := rfl
@[simp] theorem State.withCtrl_dout : (s.withCtrl v).dout = s.dout := rfl
@[simp] theorem State.withCtrl_roundKeys : (s.withCtrl v).roundKeys = s.roundKeys := rfl
@[simp] theorem State.withCtrl_phase : (s.withCtrl v).phase = s.phase := rfl
@[simp] theorem State.withCtrl_kl : (s.withCtrl v).kl = s.kl := rfl
@[simp] theorem State.withCtrl_xl : (s.withCtrl v).xl = s.xl := rfl
@[simp] theorem State.withCtrl_work : (s.withCtrl v).work = s.work := rfl
@[simp] theorem State.withCtrl_ks : (s.withCtrl v).ks = s.ks := rfl
@[simp] theorem State.withCtrl_params : (s.withCtrl v).params = s.params := rfl
@[simp] theorem State.withCtrl_events : (s.withCtrl v).events = s.events := rfl
@[simp] theorem State.withCtrl_replies : (s.withCtrl v).replies = s.replies := rfl
@[simp] theorem State.withCtrl_draws : (s.withCtrl v).draws = s.draws := rfl

end

section

variable (v : Status)

@[simp] theorem State.withStatus_ctrl : (s.withStatus v).ctrl = s.ctrl := rfl
@[simp] theorem State.withStatus_status : (s.withStatus v).status = v := rfl
@[simp] theorem State.withStatus_key : (s.withStatus v).key = s.key := rfl
@[simp] theorem State.withStatus_din : (s.withStatus v).din = s.din := rfl
@[simp] theorem State.withStatus_dout : (s.withStatus v).dout = s.dout := rfl
@[simp] theorem State.withStatus_roundKeys : (s.withStatus v).roundKeys = s.roundKeys := rfl
@[simp] theorem State.withStatus_phase : (s.withStatus v).phase = s.phase := rfl
@[simp] theorem State.withStatus_kl : (s.withStatus v).kl = s.kl := rfl
@[simp] theorem State.withStatus_xl : (s.withStatus v).xl = s.xl := rfl
@[simp] theorem State.withStatus_work : (s.withStatus v).work = s.work := rfl
@[simp] theorem State.withStatus_ks : (s.withStatus v).ks = s.ks := rfl
@[simp] theorem State.withStatus_params : (s.withStatus v).params = s.params := rfl
@[simp] theorem State.withStatus_events : (s.withStatus v).events = s.events := rfl
@[simp] theorem State.withStatus_replies : (s.withStatus v).replies = s.replies := rfl
@[simp] theorem State.withStatus_draws : (s.withStatus v).draws = s.draws := rfl

end

section

variable (v : Quad)

@[simp] theorem State.withKey_ctrl : (s.withKey v).ctrl = s.ctrl := rfl
@[simp] theorem State.withKey_status : (s.withKey v).status = s.status := rfl
@[simp] theorem State.withKey_key : (s.withKey v).key = v := rfl
@[simp] theorem State.withKey_din : (s.withKey v).din = s.din := rfl
@[simp] theorem State.withKey_dout : (s.withKey v).dout = s.dout := rfl
@[simp] theorem State.withKey_roundKeys : (s.withKey v).roundKeys = s.roundKeys := rfl
@[simp] theorem State.withKey_phase : (s.withKey v).phase = s.phase := rfl
@[simp] theorem State.withKey_kl : (s.withKey v).kl = s.kl := rfl
@[simp] theorem State.withKey_xl : (s.withKey v).xl = s.xl := rfl
@[simp] theorem State.withKey_work : (s.withKey v).work = s.work := rfl
@[simp] theorem State.withKey_ks : (s.withKey v).ks = s.ks := rfl
@[simp] theorem State.withKey_params : (s.withKey v).params = s.params := rfl
@[simp] theorem State.withKey_events : (s.withKey v).events = s.events := rfl
@[simp] theorem State.withKey_replies : (s.withKey v).replies = s.replies := rfl
@[simp] theorem State.withKey_draws : (s.withKey v).draws = s.draws := rfl

end

section

variable (v : Quad)

@[simp] theorem State.withDin_ctrl : (s.withDin v).ctrl = s.ctrl := rfl
@[simp] theorem State.withDin_status : (s.withDin v).status = s.status := rfl
@[simp] theorem State.withDin_key : (s.withDin v).key = s.key := rfl
@[simp] theorem State.withDin_din : (s.withDin v).din = v := rfl
@[simp] theorem State.withDin_dout : (s.withDin v).dout = s.dout := rfl
@[simp] theorem State.withDin_roundKeys : (s.withDin v).roundKeys = s.roundKeys := rfl
@[simp] theorem State.withDin_phase : (s.withDin v).phase = s.phase := rfl
@[simp] theorem State.withDin_kl : (s.withDin v).kl = s.kl := rfl
@[simp] theorem State.withDin_xl : (s.withDin v).xl = s.xl := rfl
@[simp] theorem State.withDin_work : (s.withDin v).work = s.work := rfl
@[simp] theorem State.withDin_ks : (s.withDin v).ks = s.ks := rfl
@[simp] theorem State.withDin_params : (s.withDin v).params = s.params := rfl
@[simp] theorem State.withDin_events : (s.withDin v).events = s.events := rfl
@[simp] theorem State.withDin_replies : (s.withDin v).replies = s.replies := rfl
@[simp] theorem State.withDin_draws : (s.withDin v).draws = s.draws := rfl

end

section

variable (v : Quad)

@[simp] theorem State.withDout_ctrl : (s.withDout v).ctrl = s.ctrl := rfl
@[simp] theorem State.withDout_status : (s.withDout v).status = s.status := rfl
@[simp] theorem State.withDout_key : (s.withDout v).key = s.key := rfl
@[simp] theorem State.withDout_din : (s.withDout v).din = s.din := rfl
@[simp] theorem State.withDout_dout : (s.withDout v).dout = v := rfl
@[simp] theorem State.withDout_roundKeys : (s.withDout v).roundKeys = s.roundKeys := rfl
@[simp] theorem State.withDout_phase : (s.withDout v).phase = s.phase := rfl
@[simp] theorem State.withDout_kl : (s.withDout v).kl = s.kl := rfl
@[simp] theorem State.withDout_xl : (s.withDout v).xl = s.xl := rfl
@[simp] theorem State.withDout_work : (s.withDout v).work = s.work := rfl
@[simp] theorem State.withDout_ks : (s.withDout v).ks = s.ks := rfl
@[simp] theorem State.withDout_params : (s.withDout v).params = s.params := rfl
@[simp] theorem State.withDout_events : (s.withDout v).events = s.events := rfl
@[simp] theorem State.withDout_replies : (s.withDout v).replies = s.replies := rfl
@[simp] theorem State.withDout_draws : (s.withDout v).draws = s.draws := rfl

end

section

variable (v : RoundKeys)

@[simp] theorem State.withRoundKeys_ctrl : (s.withRoundKeys v).ctrl = s.ctrl := rfl
@[simp] theorem State.withRoundKeys_status : (s.withRoundKeys v).status = s.status := rfl
@[simp] theorem State.withRoundKeys_key : (s.withRoundKeys v).key = s.key := rfl
@[simp] theorem State.withRoundKeys_din : (s.withRoundKeys v).din = s.din := rfl
@[simp] theorem State.withRoundKeys_dout : (s.withRoundKeys v).dout = s.dout := rfl
@[simp] theorem State.withRoundKeys_roundKeys : (s.withRoundKeys v).roundKeys = v := rfl
@[simp] theorem State.withRoundKeys_phase : (s.withRoundKeys v).phase = s.phase := rfl
@[simp] theorem State.withRoundKeys_kl : (s.withRoundKeys v).kl = s.kl := rfl
@[simp] theorem State.withRoundKeys_xl : (s.withRoundKeys v).xl = s.xl := rfl
@[simp] theorem State.withRoundKeys_work : (s.withRoundKeys v).work = s.work := rfl
@[simp] theorem State.withRoundKeys_ks : (s.withRoundKeys v).ks = s.ks := rfl
@[simp] theorem State.withRoundKeys_params : (s.withRoundKeys v).params = s.params := rfl
@[simp] theorem State.withRoundKeys_events : (s.withRoundKeys v).events = s.events := rfl
@[simp] theorem State.withRoundKeys_replies : (s.withRoundKeys v).replies = s.replies := rfl
@[simp] theorem State.withRoundKeys_draws : (s.withRoundKeys v).draws = s.draws := rfl

end

section

variable (v : Phase)

@[simp] theorem State.withPhase_ctrl : (s.withPhase v).ctrl = s.ctrl := rfl
@[simp] theorem State.withPhase_status : (s.withPhase v).status = s.status := rfl
@[simp] theorem State.withPhase_key : (s.withPhase v).key = s.key := rfl
@[simp] theorem State.withPhase_din : (s.withPhase v).din = s.din := rfl
@[simp] theorem State.withPhase_dout : (s.withPhase v).dout = s.dout := rfl
@[simp] theorem State.withPhase_roundKeys : (s.withPhase v).roundKeys = s.roundKeys := rfl
@[simp] theorem State.withPhase_phase : (s.withPhase v).phase = v := rfl
@[simp] theorem State.withPhase_kl : (s.withPhase v).kl = s.kl := rfl
@[simp] theorem State.withPhase_xl : (s.withPhase v).xl = s.xl := rfl
@[simp] theorem State.withPhase_work : (s.withPhase v).work = s.work := rfl
@[simp] theorem State.withPhase_ks : (s.withPhase v).ks = s.ks := rfl
@[simp] theorem State.withPhase_params : (s.withPhase v).params = s.params := rfl
@[simp] theorem State.withPhase_events : (s.withPhase v).events = s.events := rfl
@[simp] theorem State.withPhase_replies : (s.withPhase v).replies = s.replies := rfl
@[simp] theorem State.withPhase_draws : (s.withPhase v).draws = s.draws := rfl

end

section

variable (v : Block)

@[simp] theorem State.withKl_ctrl : (s.withKl v).ctrl = s.ctrl := rfl
@[simp] theorem State.withKl_status : (s.withKl v).status = s.status := rfl
@[simp] theorem State.withKl_key : (s.withKl v).key = s.key := rfl
@[simp] theorem State.withKl_din : (s.withKl v).din = s.din := rfl
@[simp] theorem State.withKl_dout : (s.withKl v).dout = s.dout := rfl
@[simp] theorem State.withKl_roundKeys : (s.withKl v).roundKeys = s.roundKeys := rfl
@[simp] theorem State.withKl_phase : (s.withKl v).phase = s.phase := rfl
@[simp] theorem State.withKl_kl : (s.withKl v).kl = v := rfl
@[simp] theorem State.withKl_xl : (s.withKl v).xl = s.xl := rfl
@[simp] theorem State.withKl_work : (s.withKl v).work = s.work := rfl
@[simp] theorem State.withKl_ks : (s.withKl v).ks = s.ks := rfl
@[simp] theorem State.withKl_params : (s.withKl v).params = s.params := rfl
@[simp] theorem State.withKl_events : (s.withKl v).events = s.events := rfl
@[simp] theorem State.withKl_replies : (s.withKl v).replies = s.replies := rfl
@[simp] theorem State.withKl_draws : (s.withKl v).draws = s.draws := rfl

end

section

variable (v : Block)

@[simp] theorem State.withXl_ctrl : (s.withXl v).ctrl = s.ctrl := rfl
@[simp] theorem State.withXl_status : (s.withXl v).status = s.status := rfl
@[simp] theorem State.withXl_key : (s.withXl v).key = s.key := rfl
@[simp] theorem State.withXl_din : (s.withXl v).din = s.din := rfl
@[simp] theorem State.withXl_dout : (s.withXl v).dout = s.dout := rfl
@[simp] theorem State.withXl_roundKeys : (s.withXl v).roundKeys = s.roundKeys := rfl
@[simp] theorem State.withXl_phase : (s.withXl v).phase = s.phase := rfl
@[simp] theorem State.withXl_kl : (s.withXl v).kl = s.kl := rfl
@[simp] theorem State.withXl_xl : (s.withXl v).xl = v := rfl
@[simp] theorem State.withXl_work : (s.withXl v).work = s.work := rfl
@[simp] theorem State.withXl_ks : (s.withXl v).ks = s.ks := rfl
@[simp] theorem State.withXl_params : (s.withXl v).params = s.params := rfl
@[simp] theorem State.withXl_events : (s.withXl v).events = s.events := rfl
@[simp] theorem State.withXl_replies : (s.withXl v).replies = s.replies := rfl
@[simp] theorem State.withXl_draws : (s.withXl v).draws = s.draws := rfl

end

section

variable (v : BlockWork)

@[simp] theorem State.withWork_ctrl : (s.withWork v).ctrl = s.ctrl := rfl
@[simp] theorem State.withWork_status : (s.withWork v).status = s.status := rfl
@[simp] theorem State.withWork_key : (s.withWork v).key = s.key := rfl
@[simp] theorem State.withWork_din : (s.withWork v).din = s.din := rfl
@[simp] theorem State.withWork_dout : (s.withWork v).dout = s.dout := rfl
@[simp] theorem State.withWork_roundKeys : (s.withWork v).roundKeys = s.roundKeys := rfl
@[simp] theorem State.withWork_phase : (s.withWork v).phase = s.phase := rfl
@[simp] theorem State.withWork_kl : (s.withWork v).kl = s.kl := rfl
@[simp] theorem State.withWork_xl : (s.withWork v).xl = s.xl := rfl
@[simp] theorem State.withWork_work : (s.withWork v).work = v := rfl
@[simp] theorem State.withWork_ks : (s.withWork v).ks = s.ks := rfl
@[simp] theorem State.withWork_params : (s.withWork v).params = s.params := rfl
@[simp] theorem State.withWork_events : (s.withWork v).events = s.events := rfl
@[simp] theorem State.withWork_replies : (s.withWork v).replies = s.replies := rfl
@[simp] theorem State.withWork_draws : (s.withWork v).draws = s.draws := rfl

end

section

variable (v : KeyWork)

@[simp] theorem State.withKs_ctrl : (s.withKs v).ctrl = s.ctrl := rfl
@[simp] theorem State.withKs_status : (s.withKs v).status = s.status := rfl
@[simp] theorem State.withKs_key : (s.withKs v).key = s.key := rfl
@[simp] theorem State.withKs_din : (s.withKs v).din = s.din := rfl
@[simp] theorem State.withKs_dout : (s.withKs v).dout = s.dout := rfl
@[simp] theorem State.withKs_roundKeys : (s.withKs v).roundKeys = s.roundKeys := rfl
@[simp] theorem State.withKs_phase : (s.withKs v).phase = s.phase := rfl
@[simp] theorem State.withKs_kl : (s.withKs v).kl = s.kl := rfl
@[simp] theorem State.withKs_xl : (s.withKs v).xl = s.xl := rfl
@[simp] theorem State.withKs_work : (s.withKs v).work = s.work := rfl
@[simp] theorem State.withKs_ks : (s.withKs v).ks = v := rfl
@[simp] theorem State.withKs_params : (s.withKs v).params = s.params := rfl
@[simp] theorem State.withKs_events : (s.withKs v).events = s.events := rfl
@[simp] theorem State.withKs_replies : (s.withKs v).replies = s.replies := rfl
@[simp] theorem State.withKs_draws : (s.withKs v).draws = s.draws := rfl

end

section

variable (v : List Event)

@[simp] theorem State.withEvents_ctrl : (s.withEvents v).ctrl = s.ctrl := rfl
@[simp] theorem State.withEvents_status : (s.withEvents v).status = s.status := rfl
@[simp] theorem State.withEvents_key : (s.withEvents v).key = s.key := rfl
@[simp] theorem State.withEvents_din : (s.withEvents v).din = s.din := rfl
@[simp] theorem State.withEvents_dout : (s.withEvents v).dout = s.dout := rfl
@[simp] theorem State.withEvents_roundKeys : (s.withEvents v).roundKeys = s.roundKeys := rfl
@[simp] theorem State.withEvents_phase : (s.withEvents v).phase = s.phase := rfl
@[simp] theorem State.withEvents_kl : (s.withEvents v).kl = s.kl := rfl
@[simp] theorem State.withEvents_xl : (s.withEvents v).xl = s.xl := rfl
@[simp] theorem State.withEvents_work : (s.withEvents v).work = s.work := rfl
@[simp] theorem State.withEvents_ks : (s.withEvents v).ks = s.ks := rfl
@[simp] theorem State.withEvents_params : (s.withEvents v).params = s.params := rfl
@[simp] theorem State.withEvents_events : (s.withEvents v).events = v := rfl
@[simp] theorem State.withEvents_replies : (s.withEvents v).replies = s.replies := rfl
@[simp] theorem State.withEvents_draws : (s.withEvents v).draws = s.draws := rfl

end

section

variable (v : List Reply)

@[simp] theorem State.withReplies_ctrl : (s.withReplies v).ctrl = s.ctrl := rfl
@[simp] theorem State.withReplies_status : (s.withReplies v).status = s.status := rfl
@[simp] theorem State.withReplies_key : (s.withReplies v).key = s.key := rfl
@[simp] theorem State.withReplies_din : (s.withReplies v).din = s.din := rfl
@[simp] theorem State.withReplies_dout : (s.withReplies v).dout = s.dout := rfl
@[simp] theorem State.withReplies_roundKeys : (s.withReplies v).roundKeys = s.roundKeys := rfl
@[simp] theorem State.withReplies_phase : (s.withReplies v).phase = s.phase := rfl
@[simp] theorem State.withReplies_kl : (s.withReplies v).kl = s.kl := rfl
@[simp] theorem State.withReplies_xl : (s.withReplies v).xl = s.xl := rfl
@[simp] theorem State.withReplies_work : (s.withReplies v).work = s.work := rfl
@[simp] theorem State.withReplies_ks : (s.withReplies v).ks = s.ks := rfl
@[simp] theorem State.withReplies_params : (s.withReplies v).params = s.params := rfl
@[simp] theorem State.withReplies_events : (s.withReplies v).events = s.events := rfl
@[simp] theorem State.withReplies_replies : (s.withReplies v).replies = v := rfl
@[simp] theorem State.withReplies_draws : (s.withReplies v).draws = s.draws := rfl

end

section

variable (v : Nat)

@[simp] theorem State.withDraws_ctrl : (s.withDraws v).ctrl = s.ctrl := rfl
@[simp] theorem State.withDraws_status : (s.withDraws v).status = s.status := rfl
@[simp] theorem State.withDraws_key : (s.withDraws v).key = s.key := rfl
@[simp] theorem State.withDraws_din : (s.withDraws v).din = s.din := rfl
@[simp] theorem State.withDraws_dout : (s.withDraws v).dout = s.dout := rfl
@[simp] theorem State.withDraws_roundKeys : (s.withDraws v).roundKeys = s.roundKeys := rfl
@[simp] theorem State.withDraws_phase : (s.withDraws v).phase = s.phase := rfl
@[simp] theorem State.withDraws_kl : (s.withDraws v).kl = s.kl := rfl
@[simp] theorem State.withDraws_xl : (s.withDraws v).xl = s.xl := rfl
@[simp] theorem State.withDraws_work : (s.withDraws v).work = s.work := rfl
@[simp] theorem State.withDraws_ks : (s.withDraws v).ks = s.ks := rfl
@[simp] theorem State.withDraws_params : (s.withDraws v).params = s.params := rfl
@[simp] theorem State.withDraws_events : (s.withDraws v).events = s.events := rfl
@[simp] theorem State.withDraws_replies : (s.withDraws v).replies = s.replies := rfl
@[simp] theorem State.withDraws_draws : (s.withDraws v).draws = v := rfl

end

end Sys2Proof.Machine
end

