-- ==== Sys2Proof/Laws/Status.lean ====
section
/-! SUPPORT. What each change of STATUS does to each of its fields, and that a code names one error. -/

namespace Sys2Proof.Machine

variable (st : Status)

@[simp] theorem Status.cleared_busy : st.cleared.busy = st.busy := rfl
@[simp] theorem Status.cleared_done : st.cleared.done = false := rfl
@[simp] theorem Status.cleared_err : st.cleared.err = false := rfl
@[simp] theorem Status.cleared_keyValid : st.cleared.keyValid = st.keyValid := rfl
@[simp] theorem Status.cleared_errcode : st.cleared.errcode = 0 := rfl

@[simp] theorem Status.failed_busy (code : ErrCode) : (st.failed code).busy = st.busy := rfl
@[simp] theorem Status.failed_done (code : ErrCode) : (st.failed code).done = st.done := rfl
@[simp] theorem Status.failed_err (code : ErrCode) : (st.failed code).err = true := rfl
@[simp] theorem Status.failed_keyValid (code : ErrCode) : (st.failed code).keyValid = st.keyValid := rfl
@[simp] theorem Status.failed_errcode (code : ErrCode) : (st.failed code).errcode = code.bits := rfl

@[simp] theorem Status.acknowledged_busy : st.acknowledged.busy = st.busy := rfl
@[simp] theorem Status.acknowledged_done : st.acknowledged.done = true := rfl
@[simp] theorem Status.acknowledged_err : st.acknowledged.err = st.err := rfl
@[simp] theorem Status.acknowledged_keyValid : st.acknowledged.keyValid = st.keyValid := rfl
@[simp] theorem Status.acknowledged_errcode : st.acknowledged.errcode = st.errcode := rfl

@[simp] theorem Status.started_busy : st.started.busy = true := rfl
@[simp] theorem Status.started_done : st.started.done = st.done := rfl
@[simp] theorem Status.started_err : st.started.err = st.err := rfl
@[simp] theorem Status.started_keyValid : st.started.keyValid = st.keyValid := rfl
@[simp] theorem Status.started_errcode : st.started.errcode = st.errcode := rfl

@[simp] theorem Status.completed_busy : st.completed.busy = false := rfl
@[simp] theorem Status.completed_done : st.completed.done = true := rfl
@[simp] theorem Status.completed_err : st.completed.err = st.err := rfl
@[simp] theorem Status.completed_keyValid : st.completed.keyValid = st.keyValid := rfl
@[simp] theorem Status.completed_errcode : st.completed.errcode = st.errcode := rfl

@[simp] theorem Status.keyReady_busy : st.keyReady.busy = st.busy := rfl
@[simp] theorem Status.keyReady_done : st.keyReady.done = st.done := rfl
@[simp] theorem Status.keyReady_err : st.keyReady.err = st.err := rfl
@[simp] theorem Status.keyReady_keyValid : st.keyReady.keyValid = true := rfl
@[simp] theorem Status.keyReady_errcode : st.keyReady.errcode = st.errcode := rfl

@[simp] theorem Status.keyLost_busy : st.keyLost.busy = st.busy := rfl
@[simp] theorem Status.keyLost_done : st.keyLost.done = st.done := rfl
@[simp] theorem Status.keyLost_err : st.keyLost.err = st.err := rfl
@[simp] theorem Status.keyLost_keyValid : st.keyLost.keyValid = false := rfl
@[simp] theorem Status.keyLost_errcode : st.keyLost.errcode = st.errcode := rfl

/-- The codes of R180 are distinct. -/
theorem ErrCode.bits_injective {a b : ErrCode} (h : a.bits = b.bits) : a = b := by
  cases a <;> cases b <;> first | rfl | exact absurd h (by decide)

/-- No code of R180 is above 5. -/
theorem ErrCode.bits_le (c : ErrCode) : c.bits.toNat ≤ 5 := by cases c <;> decide

/-- Every error of R180 but NONE has a code other than 0. -/
theorem ErrCode.bits_ne_zero {c : ErrCode} (h : c ≠ .none) : c.bits ≠ 0 := by
  cases c <;> first | exact absurd rfl h | decide

end Sys2Proof.Machine
end

