-- ==== Sys2Proof/Laws/Ops.lean ====
section
/-! SUPPORT. What each shared operation does, said once. -/

namespace Sys2Proof.Machine

/-- raise CoreError(code) writes ERR and ERRCODE and nothing else (spec/60_exceptions.md R182). -/
theorem raiseCoreError_eq (code : ErrCode) (s : State) :
    raiseCoreError code s = { s with status := { s.status with err := true, errcode := code.bits } } := rfl

/-- A refused CTRL write writes ERR and ERRCODE and nothing else (spec/40_control.md R96). -/
theorem busyViolation_eq (s : State) :
    busyViolation s = { s with status := { s.status with err := true, errcode := 5 } } := rfl

/-- Acceptance stores the word and clears DONE, ERR and ERRCODE (spec/40_control.md R90). -/
theorem beginAccept_eq (v : Word) (s : State) :
    beginAccept v s = { s with ctrl := v, status := { s.status with done := false, err := false, errcode := 0 } } := rfl

theorem goBusy_eq (p : Phase) (s : State) :
    goBusy p s = { s with phase := p, status := { s.status with busy := true } } := rfl

theorem finish_eq (s : State) :
    finish s = { s with phase := .idle, status := { s.status with busy := false, done := true } } := rfl

theorem reply_eq (m : Nat) (a : Response) (s : State) :
    reply m a s = { s with replies := { master := m, response := a } :: s.replies } := rfl

/-- A command word is refused while BUSY = 1 (spec/60_exceptions.md R185). -/
theorem issue_of_busy {v : Word} {start : State → State} {s : State} (h : s.status.busy = true) :
    issue v start s = busyViolation s := by simp [issue, h]

/-- A command word is accepted while BUSY = 0 (spec/40_control.md R90). -/
theorem issue_of_idle {v : Word} {start : State → State} {s : State} (h : s.status.busy = false) :
    issue v start s = start (beginAccept v s) := by simp [issue, h]

/-! The register map. -/

@[simp] theorem regAt_offset (r : Reg) : regAt r.offset = some r := by
  cases r with
  | ctrl => rfl
  | status => rfl
  | param => rfl
  | key n => revert n; decide
  | din n => revert n; decide
  | dout n => revert n; decide

/-- Every register's offset is a multiple of 4 in the window (spec/10_state.md R22). -/
theorem Reg.offset_spec (r : Reg) : r.offset % 4 = 0 ∧ r.offset < windowBytes ∧ r.offset ≠ 0x0C := by
  cases r with
  | ctrl => decide
  | status => decide
  | param => decide
  | key n => revert n; decide
  | din n => revert n; decide
  | dout n => revert n; decide

/-- The register of an offset has that offset. -/
theorem offset_of_regAt {off : Nat} {r : Reg} (h : regAt off = some r) : off = r.offset := by
  unfold regAt at h
  split at h <;> first | (cases h; rfl) | (simp at h)

@[simp] theorem target_single (off : Nat) : target (.single 4) off = regAt off := by simp [target]

/-- An access that reaches a register is one word at that register's offset (spec/20_memory.md R55). -/
theorem target_eq_some {shape : Transfer} {off : Nat} {r : Reg} (h : target shape off = some r) :
    shape = .single 4 ∧ off = r.offset := by
  unfold target at h
  split at h
  · exact ⟨‹_›, offset_of_regAt h⟩
  · simp at h

/-- The address of a register is in the window. -/
theorem inWindow_reg (p : Params) (r : Reg) : inWindow p (windowBase p + r.offset) = true := by
  have := r.offset_spec.2.1
  simp [inWindow, this]

/-! Reading a register. -/

/-- A read changes nothing but the count of draws (spec/20_memory.md R56). -/
theorem readReg_state (r : Reg) (s : State) : (readReg r s).2 = s ∨ (readReg r s).2 = s.withDraws (s.draws + 1) := by
  cases r <;> simp only [readReg, true_or]
  split <;> simp

/-- The draws a read makes: one for DOUT while BUSY = 1, else none (spec/10_state.md R37). -/
theorem readReg_state_eq (r : Reg) (s : State) :
    ∃ n, (readReg r s).2 = s.withDraws n := by
  rcases readReg_state r s with h | h
  · exact ⟨s.draws, h⟩
  · exact ⟨_, h⟩

/-! Reset. -/

@[simp] theorem resetCore_ctrl (s : State) : (resetCore s).ctrl = 0 := rfl
@[simp] theorem resetCore_status (s : State) : (resetCore s).status = Status.reset := rfl
@[simp] theorem resetCore_key (s : State) : (resetCore s).key = #v[0, 0, 0, 0] := rfl
@[simp] theorem resetCore_din (s : State) : (resetCore s).din = #v[0, 0, 0, 0] := rfl
@[simp] theorem resetCore_dout (s : State) : (resetCore s).dout = #v[0, 0, 0, 0] := rfl
@[simp] theorem resetCore_phase (s : State) : (resetCore s).phase = .idle := rfl
@[simp] theorem resetCore_params (s : State) : (resetCore s).params = s.params := rfl
@[simp] theorem resetCore_events (s : State) : (resetCore s).events = s.events := rfl
@[simp] theorem resetCore_replies (s : State) : (resetCore s).replies = s.replies := rfl
@[simp] theorem resetCore_draws (s : State) : (resetCore s).draws = s.draws := rfl

end Sys2Proof.Machine
end

