-- ==== Sys2Proof/Laws/Exec.lean ====
section
/-! SUPPORT. What each command and each completion does, said once. -/

namespace Sys2Proof.Machine

/-- What the accepted NOP, KEY_EXPAND, ENCRYPT or DECRYPT does after the common part of the acceptance. -/
def startOf : Instr → State → State
  | .nop _ => finishNop
  | .keyExpand n => startKeyExpand (operandLength n)
  | .encrypt n => startBlock .enc (operandLength n)
  | .decrypt n => startBlock .dec (operandLength n)

/-- Every command written to CTRL gives a next state: its word is issued (spec/40_control.md R90). -/
theorem exec_eq_issue (i : Instr) (s : State) : exec i s = .next (issue (encode i) (startOf i) s) := by
  cases i <;> rfl

/-- The two ways of a KEY_EXPAND's acceptance (spec/41_key_schedule.md R111, R112). -/
theorem startKeyExpand_cases (n : Nat) (s : State) :
    (n ≠ 16 ∧ startKeyExpand n s = { s with status := { s.status with keyValid := false, err := true, errcode := 2 } }) ∨
    (n = 16 ∧ startKeyExpand n s = { s with
      status := { s.status with keyValid := false, busy := true }, kl := latchBytes s.key, phase := .keyx }) := by
  by_cases h : n = 16
  · exact .inr ⟨h, by subst h; rfl⟩
  · exact .inl ⟨h, by simp [startKeyExpand, keyBytes, h]; rfl⟩

/-- The three ways of a block command's acceptance (spec/42_block_cipher.md R140, R142, R143, R150, R152). -/
theorem startBlock_cases (p : Phase) (n : Nat) (s : State) :
    (n ≠ 16 ∧ startBlock p n s = { s with status := { s.status with err := true, errcode := 1 } }) ∨
    (n = 16 ∧ s.status.keyValid = false ∧
      startBlock p n s = { s with status := { s.status with err := true, errcode := 3 } }) ∨
    (n = 16 ∧ s.status.keyValid = true ∧ startBlock p n s = { s with
      status := { s.status with busy := true }, xl := latchBytes s.din, phase := p }) := by
  by_cases h : n = 16
  · subst h
    cases hk : s.status.keyValid with
    | false => exact .inr (.inl ⟨rfl, rfl, by
      simp [startBlock, blockBytes, hk, raiseCoreError_eq, ErrCode.bits]⟩)
    | true => exact .inr (.inr ⟨rfl, rfl, by
      simp [startBlock, blockBytes, hk, goBusy_eq, State.withXl]⟩)
  · exact .inl ⟨h, by simp [startBlock, blockBytes, h]; rfl⟩

/-- LEN is 16 as a number exactly when it is 16 as a field. -/
theorem operandLength_eq_16 {n : BitVec 8} : operandLength n = 16 ↔ n = 16 :=
  ⟨fun h => BitVec.eq_of_toNat_eq h, fun h => by subst h; rfl⟩

/-- Everything the acceptance of a command can do (spec/40_control.md R90, R91). -/
theorem acceptance_cases (i : Instr) (s : State) (hb : s.status.busy = false) :
    (i.kind = .nop ∧ issue (encode i) (startOf i) s = { s with
      ctrl := encode i, status := { s.status with done := true, err := false, errcode := 0 } }) ∨
    (i.kind = .keyExpand ∧ i.len ≠ 16 ∧ issue (encode i) (startOf i) s = { s with
      ctrl := encode i, status := { s.status with done := false, err := true, keyValid := false, errcode := 2 } }) ∨
    (i = .keyExpand 16 ∧ issue (encode i) (startOf i) s = { s with
      ctrl := 0x00001001, kl := latchBytes s.key, phase := .keyx,
      status := { s.status with busy := true, done := false, err := false, keyValid := false, errcode := 0 } }) ∨
    ((i.kind = .encrypt ∨ i.kind = .decrypt) ∧ i.len ≠ 16 ∧ issue (encode i) (startOf i) s = { s with
      ctrl := encode i, status := { s.status with done := false, err := true, errcode := 1 } }) ∨
    ((i = .encrypt 16 ∨ i = .decrypt 16) ∧ s.status.keyValid = false ∧ issue (encode i) (startOf i) s = { s with
      ctrl := encode i, status := { s.status with done := false, err := true, errcode := 3 } }) ∨
    (i = .encrypt 16 ∧ s.status.keyValid = true ∧ issue (encode i) (startOf i) s = { s with
      ctrl := 0x00001002, xl := latchBytes s.din, phase := .enc,
      status := { s.status with busy := true, done := false, err := false, errcode := 0 } }) ∨
    (i = .decrypt 16 ∧ s.status.keyValid = true ∧ issue (encode i) (startOf i) s = { s with
      ctrl := 0x00001003, xl := latchBytes s.din, phase := .dec,
      status := { s.status with busy := true, done := false, err := false, errcode := 0 } }) := by
  rw [issue_of_idle hb]
  cases i with
  | nop n => exact .inl ⟨rfl, rfl⟩
  | keyExpand n =>
    rcases startKeyExpand_cases (operandLength n) (beginAccept (encode (.keyExpand n)) s) with ⟨hn, h⟩ | ⟨hn, h⟩
    · exact .inr (.inl ⟨rfl, fun h' => hn (operandLength_eq_16.2 h'), h⟩)
    · obtain rfl := operandLength_eq_16.1 hn
      exact .inr (.inr (.inl ⟨rfl, h⟩))
  | encrypt n =>
    rcases startBlock_cases .enc (operandLength n) (beginAccept (encode (.encrypt n)) s) with
      ⟨hn, h⟩ | ⟨hn, hk, h⟩ | ⟨hn, hk, h⟩
    · exact .inr (.inr (.inr (.inl ⟨.inl rfl, fun h' => hn (operandLength_eq_16.2 h'), h⟩)))
    · obtain rfl := operandLength_eq_16.1 hn
      exact .inr (.inr (.inr (.inr (.inl ⟨.inl rfl, hk, h⟩))))
    · obtain rfl := operandLength_eq_16.1 hn
      exact .inr (.inr (.inr (.inr (.inr (.inl ⟨rfl, hk, h⟩)))))
  | decrypt n =>
    rcases startBlock_cases .dec (operandLength n) (beginAccept (encode (.decrypt n)) s) with
      ⟨hn, h⟩ | ⟨hn, hk, h⟩ | ⟨hn, hk, h⟩
    · exact .inr (.inr (.inr (.inl ⟨.inr rfl, fun h' => hn (operandLength_eq_16.2 h'), h⟩)))
    · obtain rfl := operandLength_eq_16.1 hn
      exact .inr (.inr (.inr (.inr (.inl ⟨.inr rfl, hk, h⟩))))
    · obtain rfl := operandLength_eq_16.1 hn
      exact .inr (.inr (.inr (.inr (.inr (.inr ⟨rfl, hk, h⟩)))))

/-- Issuing a command answers no access. -/
@[simp] theorem issue_command_replies (i : Instr) (s : State) :
    (issue (encode i) (startOf i) s).replies = s.replies := by
  cases hb : s.status.busy with
  | true => rw [issue_of_busy hb, busyViolation_eq]
  | false =>
    rcases acceptance_cases i s hb with ⟨_, e⟩ | ⟨_, _, e⟩ | ⟨_, e⟩ | ⟨_, _, e⟩ | ⟨_, _, e⟩ | ⟨_, _, e⟩ | ⟨_, _, e⟩ <;> rw [e]

/-- Issuing an illegal word answers no access. -/
@[simp] theorem issue_illegal_replies (v : Word) (s : State) :
    (issue v (raiseCoreError .illegalCmd) s).replies = s.replies := by
  cases hb : s.status.busy with
  | true => rw [issue_of_busy hb, busyViolation_eq]
  | false => rw [issue_of_idle hb, raiseCoreError_eq, beginAccept_eq]

theorem completeKeyExpand_eq (s : State) :
    completeKeyExpand s = { s with
      roundKeys := keyExpand s.params.wordOrder s.kl, ks := KeyWork.noValue, phase := .idle,
      status := { s.status with keyValid := true, busy := false, done := true } } := by
  simp only [completeKeyExpand, finish_eq, State.withRoundKeys, State.withKs, State.withStatus, Status.keyReady]

theorem completeEncrypt_eq (s : State) :
    completeEncrypt s = { s with
      work := encryptWork s.params.wordOrder s.roundKeys s.xl,
      dout := packBytes (rc6Encrypt s.params.wordOrder s.roundKeys s.xl), phase := .idle,
      status := { s.status with busy := false, done := true } } := by
  simp only [completeEncrypt, publishBlock, finish_eq, State.withWork, State.withDout, rc6Encrypt]

theorem completeDecrypt_eq (s : State) :
    completeDecrypt s = { s with
      work := decryptWork s.params.wordOrder s.roundKeys s.xl,
      dout := packBytes (rc6Decrypt s.params.wordOrder s.roundKeys s.xl), phase := .idle,
      status := { s.status with busy := false, done := true } } := by
  simp only [completeDecrypt, publishBlock, finish_eq, State.withWork, State.withDout, rc6Decrypt]

/-- The step of SEQ, phase by phase (spec/40_control.md R97). -/
theorem seqStep_cases (s : State) :
    (s.phase = .idle ∧ seqStep s = s) ∨ (s.phase = .keyx ∧ seqStep s = completeKeyExpand s) ∨
    (s.phase = .enc ∧ seqStep s = completeEncrypt s) ∨ (s.phase = .dec ∧ seqStep s = completeDecrypt s) := by
  cases h : s.phase <;> simp [seqStep, h]

end Sys2Proof.Machine
end

