-- ==== Sys2Proof/Laws/PerInstr.lean ====
section
/-! SUPPORT. Statements about every instruction as syntax, one lemma per constructor. -/

namespace Sys2Proof.Laws.EncodedFields

/-- The encoded word of a command holds its CMD and LEN in their fields, the reserved fields zero
(spec/30_encoding.md R70, R73). -/
def Statement (i : Instr) : Prop :=
  cmdField (encode i) = i.cmd ∧ lenField (encode i) = i.len ∧ rsv0Field (encode i) = 0 ∧ rsv1Field (encode i) = 0

theorem nop (len : BitVec 8) : Statement (.nop len) := by simp [Statement, encode]

theorem keyExpand (len : BitVec 8) : Statement (.keyExpand len) := by simp [Statement, encode]

theorem encrypt (len : BitVec 8) : Statement (.encrypt len) := by simp [Statement, encode]

theorem decrypt (len : BitVec 8) : Statement (.decrypt len) := by simp [Statement, encode]

end Sys2Proof.Laws.EncodedFields
end

