-- ==== Sys2Proof/Laws/Step.lean ====
section
/-! SUPPORT. What a bus access, an event and a step can do, said once. -/

namespace Sys2Proof.Machine

/-- A word written to CTRL is issued, as a command or as an illegal word (spec/20_memory.md R57). -/
theorem writeCtrl_cases (v : Word) (s : State) :
    (∃ i, decode v = .command i ∧ writeCtrl v s = .next (issue (encode i) (startOf i) s)) ∨
    (∃ why, decode v = .illegal why ∧ writeCtrl v s = .next (issue v (raiseCoreError .illegalCmd) s)) := by
  cases hd : decode v with
  | command i => exact .inl ⟨i, rfl, by simp only [writeCtrl, hd, exec_eq_issue]⟩
  | illegal why => exact .inr ⟨why, rfl, by simp only [writeCtrl, hd, illegalCommand]⟩

/-- A legal write always gives a next state (spec/20_memory.md R57). -/
theorem writeReg_next (r : Reg) (v : Word) (s : State) : ∃ t, writeReg r v s = .next t := by
  cases r with
  | ctrl =>
    rcases writeCtrl_cases v s with ⟨_, _, h⟩ | ⟨_, _, h⟩ <;> exact ⟨_, h⟩
  | status => exact ⟨_, rfl⟩
  | param => exact ⟨_, rfl⟩
  | key n => exact ⟨_, rfl⟩
  | din n => exact ⟨_, rfl⟩
  | dout n => exact ⟨_, rfl⟩

/-- Everything an access can do (spec/20_memory.md R51, R55 to R58). -/
theorem hostAccess_cases (m : Nat) (a : Access) (s : State) :
    (∃ addr, inWindow s.params addr = false ∧ hostAccess m a s = .fault (.outsideWindow addr)) ∨
    (∃ addr, hostAccess m a s = .next (reply m (.busError addr) s)) ∨
    (∃ r, a = .read (windowBase s.params + r.offset) (.single 4) ∧
      hostAccess m a s = .next (reply m (.data (readReg r s).1) (readReg r s).2)) ∨
    (∃ r v, a = .write (windowBase s.params + r.offset) (.single 4) v ∧
      hostAccess m a s = writeReg r v (reply m .written s)) := by
  have hin : ∀ {addr r}, inWindow s.params addr = true → addr - windowBase s.params = Reg.offset r →
      addr = windowBase s.params + r.offset := by
    intro addr r hw ho
    simp only [inWindow, Bool.and_eq_true, decide_eq_true_eq] at hw
    omega
  cases a with
  | read addr shape =>
    simp only [hostAccess]
    by_cases hw : inWindow s.params addr
    · cases ht : target shape (addr - windowBase s.params) with
      | none => exact .inr (.inl ⟨addr, by simp [hw]⟩)
      | some r =>
        obtain ⟨rfl, ho⟩ := target_eq_some ht
        exact .inr (.inr (.inl ⟨r, by rw [← hin hw ho], by simp [hw]⟩))
    · exact .inl ⟨addr, by simpa using hw, by simp [hw]⟩
  | write addr shape v =>
    simp only [hostAccess]
    by_cases hw : inWindow s.params addr
    · cases ht : target shape (addr - windowBase s.params) with
      | none => exact .inr (.inl ⟨addr, by simp [hw]⟩)
      | some r =>
        obtain ⟨rfl, ho⟩ := target_eq_some ht
        exact .inr (.inr (.inr ⟨r, v, by rw [← hin hw ho], by simp [hw]⟩))
    · exact .inl ⟨addr, by simpa using hw, by simp [hw]⟩

/-- A legal read of a register (spec/20_memory.md R56). -/
theorem hostAccess_read_reg (m : Nat) (r : Reg) (s : State) :
    hostAccess m (.read (windowBase s.params + r.offset) (.single 4)) s =
      .next (reply m (.data (readReg r s).1) (readReg r s).2) := by
  simp [hostAccess, inWindow_reg]

/-- A legal write to a register (spec/20_memory.md R57). -/
theorem hostAccess_write_reg (m : Nat) (r : Reg) (v : Word) (s : State) :
    hostAccess m (.write (windowBase s.params + r.offset) (.single 4) v) s = writeReg r v (reply m .written s) := by
  simp [hostAccess, inWindow_reg]

/-- Everything an access that gives a next state can do: only answer (and count a draw), store to KEY or DIN, or issue a
word written to CTRL, as a command or as an illegal word. -/
theorem hostAccess_next_cases {m : Nat} {a : Access} {s t : State} (h : hostAccess m a s = .next t) :
    ((∀ v, a ≠ .write (windowBase s.params + Reg.offset .ctrl) (.single 4) v) ∧
      ∃ answer n, t = reply m answer (s.withDraws n)) ∨
    (∃ n v, a = .write (windowBase s.params + Reg.offset (.key n)) (.single 4) v ∧
      t = (reply m .written s).withKey (s.key.set n v)) ∨
    (∃ n v, a = .write (windowBase s.params + Reg.offset (.din n)) (.single 4) v ∧
      t = (reply m .written s).withDin (s.din.set n v)) ∨
    (∃ v i, a = .write (windowBase s.params + Reg.offset .ctrl) (.single 4) v ∧ decode v = .command i ∧
      t = issue (encode i) (startOf i) (reply m .written s)) ∨
    (∃ v why, a = .write (windowBase s.params + Reg.offset .ctrl) (.single 4) v ∧ decode v = .illegal why ∧
      t = issue v (raiseCoreError .illegalCmd) (reply m .written s)) := by
  have hne : ∀ {r : Reg} {w : Word}, r ≠ .ctrl → a = .write (windowBase s.params + r.offset) (.single 4) w →
      ∀ v, a ≠ .write (windowBase s.params + Reg.offset .ctrl) (.single 4) v := by
    intro r w hr ha v hv
    rw [ha] at hv
    have ho : r.offset = Reg.offset .ctrl := by simpa using (Access.write.inj hv).1
    exact hr (Option.some.inj (by rw [← regAt_offset, ho, regAt_offset]))
  rcases hostAccess_cases m a s with ⟨_, _, h'⟩ | ⟨addr, h'⟩ | ⟨r, ha, h'⟩ | ⟨r, v, ha, h'⟩
  · rw [h'] at h; cases h
  · refine .inl ⟨fun v hv => ?_, .busError addr, s.draws, by rw [h'] at h; cases h; rfl⟩
    subst hv
    rw [hostAccess_write_reg] at h'
    simp only [writeReg] at h'
    rcases writeCtrl_cases v (reply m .written s) with ⟨i, _, hw⟩ | ⟨why, _, hw⟩
    all_goals
      rw [hw] at h'
      have hr := congrArg State.replies (Host.Outcome.next.inj h')
      simp [reply] at hr
  · rw [h'] at h; cases h
    obtain ⟨n, hn⟩ := readReg_state_eq r s
    exact .inl ⟨fun v hv => by (rw [ha] at hv; cases hv), _, n, by rw [hn]⟩
  · rw [h'] at h
    cases r with
    | ctrl =>
      rcases writeCtrl_cases v (reply m .written s) with ⟨i, hd, hw⟩ | ⟨why, hd, hw⟩
      · simp only [writeReg, hw] at h; cases h
        exact .inr (.inr (.inr (.inl ⟨v, i, ha, hd, rfl⟩)))
      · simp only [writeReg, hw] at h; cases h
        exact .inr (.inr (.inr (.inr ⟨v, why, ha, hd, rfl⟩)))
    | status => cases h; exact .inl ⟨hne (by decide) ha, _, s.draws, rfl⟩
    | param => cases h; exact .inl ⟨hne (by decide) ha, _, s.draws, rfl⟩
    | key n => cases h; exact .inr (.inl ⟨n, v, ha, rfl⟩)
    | din n => cases h; exact .inr (.inr (.inl ⟨n, v, ha, rfl⟩))
    | dout n => cases h; exact .inl ⟨hne (by simp) ha, _, s.draws, rfl⟩

/-- With no event pending, SEQ steps (spec/40_control.md R100). -/
theorem step_nil {s : State} (h : s.events = []) : step s = .next (seqStep s) := by simp [step, h]

/-- With an event pending, its agent steps (spec/20_memory.md R60). -/
theorem step_cons {s : State} {e : Event} {rest : List Event} (h : s.events = e :: rest) :
    step s = runEvent e (s.withEvents rest) := by simp [step, h]

/-- Everything a step that gives a next state can be: SEQ with nothing pending, SEQ, reset, or one access of a host. -/
theorem step_next_cases {s t : State} (h : step s = .next t) :
    (s.events = [] ∧ t = seqStep s) ∨
    (∃ rest, s.events = .seqComplete :: rest ∧ t = seqStep (s.withEvents rest)) ∨
    (∃ rest, s.events = .reset :: rest ∧ t = resetCore (s.withEvents rest)) ∨
    (∃ m a rest, s.events = .host m a :: rest ∧ hostAccess m a (s.withEvents rest) = .next t) := by
  cases he : s.events with
  | nil =>
    rw [step_nil he] at h
    cases h
    exact .inl ⟨rfl, rfl⟩
  | cons e rest =>
    rw [step_cons he] at h
    cases e with
    | host m a => exact .inr (.inr (.inr ⟨m, a, rest, rfl, h⟩))
    | seqComplete =>
      simp only [runEvent, Host.Outcome.next.injEq] at h
      exact .inr (.inl ⟨rest, rfl, h.symm⟩)
    | reset =>
      simp only [runEvent, Host.Outcome.next.injEq] at h
      exact .inr (.inr (.inl ⟨rest, rfl, h.symm⟩))

end Sys2Proof.Machine
end

