-- ==== Sys2Proof/Laws/Script.lean ====
section
/-! SUPPORT. What the accesses and the POLL of a host script do, said once. -/

namespace Sys2Proof.Machine

@[simp] theorem aloneSession_core (s : State) (vs : List (Nat × Word)) (n : Nat) : (aloneSession s vs n).core = s := rfl
@[simp] theorem aloneSession_vars (s : State) (vs : List (Nat × Word)) (n : Nat) : (aloneSession s vs n).vars = vs := rfl
@[simp] theorem aloneSession_halt (s : State) (vs : List (Nat × Word)) (n : Nat) : (aloneSession s vs n).halt = none := rfl
@[simp] theorem aloneSession_others_length (s : State) (vs : List (Nat × Word)) (n : Nat) :
    (aloneSession s vs n).others.length = n := by simp [aloneSession]

/-- Nothing happens before an access of a master alone on the bus. -/
@[simp] theorem aloneSession_advance (s : State) (vs : List (Nat × Word)) (n : Nat) :
    (aloneSession s vs n).advance = aloneSession s vs (n - 1) := by
  cases n <;> rfl

/-- A legal read of a master alone on the bus (spec/20_memory.md R56). -/
theorem aloneSession_read (s : State) (vs : List (Nat × Word)) (n m : Nat) (r : Reg) :
    (aloneSession s vs n).read m r.offset =
      aloneSession (reply m (.data (readReg r s).1) (readReg r s).2) vs (n - 1) := by
  simp only [Session.read, Session.access, aloneSession_advance, aloneSession_core, aloneSession_halt, Option.isSome_none,
    Bool.false_eq_true, if_false, hostAccess_read_reg]
  rfl

/-- The word such a read returned. -/
theorem aloneSession_read_word (s : State) (vs : List (Nat × Word)) (n m : Nat) (r : Reg) :
    ((aloneSession s vs n).read m r.offset).word? = some (readReg r s).1 := by
  rw [aloneSession_read]; rfl

/-- A legal write of a master alone on the bus, whatever state it leads to (spec/20_memory.md R57). -/
theorem aloneSession_write {s t : State} {m : Nat} {r : Reg} {v : Word} (h : writeReg r v (reply m .written s) = .next t)
    (hr : t.replies = (reply m .written s).replies) (vs : List (Nat × Word)) (n : Nat) :
    (aloneSession s vs n).write m r.offset v = aloneSession t vs (n - 1) := by
  simp only [Session.write, Session.access, aloneSession_advance, aloneSession_core, aloneSession_halt, Option.isSome_none,
    Bool.false_eq_true, if_false, hostAccess_write_reg, h]
  simp [Session.noteError, Session.goOn, Session.answer?, aloneSession, hr, reply]

/-- A WR of a number: the write. -/
theorem run_wr_imm (m : Nat) (r : Reg) (v : Word) (s : State) (vs : List (Nat × Word)) (n : Nat) :
    (HostInstr.wr r.offset (.imm v)).run m (aloneSession s vs n) = (aloneSession s vs n).write m r.offset v := by
  simp [HostInstr.run, Session.value?]

/-- An RD: the word read goes to the variable. -/
theorem run_rd (m : Nat) (r : Reg) (h : Nat) (s : State) (vs : List (Nat × Word)) (n : Nat) :
    (HostInstr.rd r.offset h).run m (aloneSession s vs n) =
      aloneSession (reply m (.data (readReg r s).1) (readReg r s).2) ((h, (readReg r s).1) :: vs) (n - 1) := by
  simp only [HostInstr.run, aloneSession_halt, Option.isSome_none, Bool.false_eq_true, if_false, aloneSession_read_word]
  rw [aloneSession_read]; rfl

/-- Bit 0 of the STATUS word is BUSY (spec/10_state.md R24). -/
theorem status_word_and_one (st : Status) : st.word &&& 0x1 = if st.busy then 1 else 0 := by
  rcases st with ⟨b, d, e, k, c⟩
  revert b d e k c
  decide

/-- A script in two parts. -/
theorem runScript_append (m : Nat) (is js : List HostInstr) (σ : Session) :
    runScript m (is ++ js) σ = runScript m js (runScript m is σ) := by
  induction is generalizing σ with
  | nil => rfl
  | cons i is ih => exact ih _

/-- The completion does not look at the answers given so far. -/
theorem seqStep_withReplies (s : State) (rs : List Reply) : seqStep (s.withReplies rs) = (seqStep s).withReplies rs := by
  cases hp : s.phase with
  | idle => simp [seqStep, hp]
  | keyx => simp only [seqStep, hp, completeKeyExpand_eq, State.withReplies]
  | enc => simp only [seqStep, hp, completeEncrypt_eq, State.withReplies]
  | dec => simp only [seqStep, hp, completeDecrypt_eq, State.withReplies]

/-- The completion of a command in flight clears BUSY (spec/40_control.md R97). -/
theorem seqStep_not_busy {s : State} (h : s.phase ≠ .idle) : (seqStep s).status.busy = false := by
  rcases seqStep_cases s with ⟨hp, _⟩ | ⟨_, e⟩ | ⟨_, e⟩ | ⟨_, e⟩
  · exact absurd hp h
  · rw [e, completeKeyExpand_eq]
  · rw [e, completeEncrypt_eq]
  · rw [e, completeDecrypt_eq]

/-- A read of a POLL with further reads allowed (spec/30_encoding.md R76). -/
theorem poll_succ {σ : Session} {m off k : Nat} {mask val h : Word} (hw : (σ.read m off).word? = some h) :
    σ.poll m off mask val (k + 1) =
      if h &&& mask = val then σ.read m off else (σ.read m off).poll m off mask val k := by
  simp only [Session.poll, hw]

/-- The last read of a POLL, after the completion (log 10). -/
theorem poll_zero {s : State} {vs : List (Nat × Word)} {n m off : Nat} {mask val h : Word}
    (hw : ((aloneSession (seqStep s) vs n).read m off).word? = some h) :
    (aloneSession s vs n).poll m off mask val 0 =
      if h &&& mask = val then (aloneSession (seqStep s) vs n).read m off
      else { (aloneSession (seqStep s) vs n).read m off with halt := some .pollForever } := by
  simp only [Session.poll, aloneSession_halt, Option.isSome_none, Bool.false_eq_true, if_false, aloneSession_core]
  simp only [aloneSession] at hw ⊢
  rw [hw]

/-- A POLL of BUSY on a core that is not busy ends at its first read. -/
theorem poll_of_not_busy {s : State} (hb : s.status.busy = false) (hp : s.phase = .idle) (m k : Nat)
    (vs : List (Nat × Word)) (n : Nat) :
    (aloneSession s vs n).poll m (Reg.offset .status) 0x1 0x0 k =
      aloneSession (reply m (.data s.status.word) s) vs (n - 1) := by
  have hw : s.status.word &&& 0x1 = 0x0 := by rw [status_word_and_one, hb]; rfl
  have hr : (readReg .status s).1 &&& 0x1 = 0x0 := hw
  cases k with
  | zero =>
    have hs : seqStep s = s := by simp [seqStep, hp]
    rw [poll_zero (aloneSession_read_word _ _ _ _ _), hs, if_pos hr, aloneSession_read]
    rfl
  | succ k =>
    rw [poll_succ (aloneSession_read_word _ _ _ _ _), if_pos hr, aloneSession_read]
    rfl

/-- A POLL of BUSY with a command in flight ends after its completion, however many reads come before it
(spec/70_reset_and_hazards.md R215; the completion before the last read is log 10). -/
theorem poll_of_busy {s : State} (hb : s.status.busy = true) (hp : s.phase ≠ .idle) (m k : Nat)
    (vs : List (Nat × Word)) (n : Nat) :
    ∃ rs, (aloneSession s vs n).poll m (Reg.offset .status) 0x1 0x0 k =
      aloneSession ((seqStep s).withReplies rs) vs (n - (k + 1)) := by
  induction k generalizing s n with
  | zero =>
    have hr : (readReg .status (seqStep s)).1 &&& 0x1 = 0x0 := by
      change (seqStep s).status.word &&& 0x1 = 0x0
      rw [status_word_and_one, seqStep_not_busy hp]; rfl
    exact ⟨_, by rw [poll_zero (aloneSession_read_word _ _ _ _ _), if_pos hr, aloneSession_read]; rfl⟩
  | succ k ih =>
    have hr : (readReg .status s).1 &&& 0x1 ≠ 0x0 := by
      change s.status.word &&& 0x1 ≠ 0x0
      rw [status_word_and_one, hb]; decide
    obtain ⟨rs, h⟩ := ih (s := reply m (.data s.status.word) s) hb hp (n - 1)
    refine ⟨rs, ?_⟩
    rw [poll_succ (aloneSession_read_word _ _ _ _ _), if_neg hr, aloneSession_read]
    change (aloneSession (reply m (.data s.status.word) s) vs (n - 1)).poll _ _ _ _ k = _
    rw [h, reply, seqStep_withReplies, Nat.sub_sub, Nat.add_comm 1]
    rfl

/-- WAIT on a core that is not busy. -/
theorem run_wait_of_not_busy {s : State} (hb : s.status.busy = false) (hp : s.phase = .idle) (m : Nat)
    (vs : List (Nat × Word)) (n : Nat) :
    runScript m hostWait (aloneSession s vs n) = aloneSession (reply m (.data s.status.word) s) vs (n - 1) := by
  simp only [hostWait, runScript, HostInstr.run, aloneSession_halt, Option.isSome_none, Bool.false_eq_true, if_false]
  exact poll_of_not_busy hb hp m _ vs n

/-- WAIT with a command in flight: it ends after the completion (spec/30_encoding.md R77). -/
theorem run_wait_of_busy {s : State} (hb : s.status.busy = true) (hp : s.phase ≠ .idle) (m : Nat)
    (vs : List (Nat × Word)) (n : Nat) :
    ∃ rs, runScript m hostWait (aloneSession s vs n) = aloneSession ((seqStep s).withReplies rs) vs 0 := by
  simp only [hostWait, runScript, HostInstr.run, aloneSession_halt, Option.isSome_none, Bool.false_eq_true, if_false,
    aloneSession_others_length]
  obtain ⟨rs, h⟩ := poll_of_busy hb hp m n vs n
  exact ⟨rs, by rw [h, Nat.sub_eq_zero_of_le (Nat.le_succ n)]⟩

/-- With LEN = 16 a command's script is the pseudo-instruction of R77. -/
theorem commandScript_eq :
    commandScript (.keyExpand 16) = hostKeyx ∧ commandScript (.encrypt 16) = hostEnc ∧
    commandScript (.decrypt 16) = hostDec := ⟨rfl, rfl, rfl⟩

/-! Whatever other agents do. -/

/-- A read that does not stop the script has an answer (spec/20_memory.md R56, R58). -/
theorem read_answers {m off : Nat} {σ : Session} (h : (σ.read m off).halt = none) :
    ∃ v, (σ.read m off).word? = some v := by
  simp only [Session.read, Session.access] at h ⊢
  generalize σ.advance = τ at h ⊢
  cases hh : τ.halt with
  | some w => simp [Session.noteError, hh] at h
  | none =>
    simp only [hh, Option.isSome_none, Bool.false_eq_true, if_false] at h ⊢
    rcases hostAccess_cases m (.read (windowBase σ.core.params + off) (.single 4)) τ.core with
      ⟨addr, _, e⟩ | ⟨addr, e⟩ | ⟨r, _, e⟩ | ⟨r, v, ha, _⟩
    · rw [e] at h; simp [Session.goOn, Session.noteError] at h
    · rw [e] at h; simp [Session.goOn, Session.noteError, Session.answer?, reply, hh] at h
    · rw [e]
      refine ⟨(readReg r τ.core).1, ?_⟩
      simp [Session.goOn, Session.noteError, Session.answer?, Session.word?, reply, hh]
    · cases ha

/-- An RD that does not stop the script assigns its variable and no other (spec/30_encoding.md R76). -/
theorem run_rd_assigns {m off x : Nat} {σ : Session} (h : ((HostInstr.rd off x).run m σ).halt = none) :
    ∃ v, ((HostInstr.rd off x).run m σ).vars = (x, v) :: (σ.read m off).vars := by
  cases hh : σ.halt with
  | some w => simp [HostInstr.run, hh] at h
  | none =>
    simp only [HostInstr.run, hh, Option.isSome_none, Bool.false_eq_true, if_false] at h ⊢
    cases hw : (σ.read m off).word? with
    | some v => exact ⟨v, rfl⟩
    | none =>
      rw [hw] at h
      obtain ⟨v, hv⟩ := read_answers h
      rw [hw] at hv; cases hv

/-- Accesses and the steps of other agents change no host variable. -/
theorem read_vars (m off : Nat) (σ : Session) : (σ.read m off).vars = σ.vars := by
  have goOn_vars : ∀ (τ : Session) (o : Host.Outcome State Fault Refusal), (τ.goOn o).vars = τ.vars := by
    intro τ o
    cases o with
    | next s => rfl
    | fault r => cases r; rfl
    | refused r => rfl
  have advance_vars : σ.advance.vars = σ.vars := by
    simp only [Session.advance]
    cases σ.others with
    | nil => rfl
    | cons es rest => exact goOn_vars _ _
  have note_vars : ∀ τ : Session, τ.noteError.vars = τ.vars := by
    intro τ
    simp only [Session.noteError]
    split <;> rfl
  simp only [Session.read, note_vars, Session.access]
  split
  · exact advance_vars
  · rw [goOn_vars, advance_vars]

/-- A script that has halted does nothing more. -/
theorem runScript_of_halted {σ : Session} (h : σ.halt.isSome = true) (m : Nat) (is : List HostInstr) :
    runScript m is σ = σ := by
  induction is with
  | nil => rfl
  | cons i is ih =>
    have hi : i.run m σ = σ := by simp only [HostInstr.run, h, if_true]
    rw [runScript, hi, ih]

/-! The parts of the per-block protocol. -/

/-- A WR to DINn stores the word (spec/10_state.md R30). -/
theorem run_wr_din (m : Nat) (k : Fin 4) (v : Word) (s : State) (vs : List (Nat × Word)) (n : Nat) :
    (HostInstr.wr (Reg.offset (.din k)) (.imm v)).run m (aloneSession s vs n) =
      aloneSession ((reply m .written s).withDin (s.din.set k v)) vs (n - 1) := by
  rw [run_wr_imm, aloneSession_write (t := (reply m .written s).withDin (s.din.set k v)) rfl rfl]

/-- Storing four words one by one in four registers. -/
theorem quad_set_all (q d : Quad) : (((q.set 0 d[0]).set 1 d[1]).set 2 d[2]).set 3 d[3] = d := by
  ext i hi
  interval_cases i <;> simp

/-- LDBLK puts the four words in DIN0..DIN3 (spec/30_encoding.md R77). -/
theorem run_ldBlk (m : Nat) (d : Quad) (s : State) (vs : List (Nat × Word)) (n : Nat) :
    ∃ rs, runScript m (ldBlk (.imm d[0]) (.imm d[1]) (.imm d[2]) (.imm d[3])) (aloneSession s vs n) =
      aloneSession ((s.withDin d).withReplies rs) vs (n - 4) := by
  refine ⟨[Reply.mk m .written, Reply.mk m .written, Reply.mk m .written, Reply.mk m .written] ++ s.replies, ?_⟩
  simp only [ldBlk, runScript, run_wr_din]
  have hd := quad_set_all s.din d
  congr 1
  simp [reply, State.withDin, State.withReplies, hd]

/-- A WR of a command word to CTRL issues the command (spec/40_control.md R90, R96). -/
theorem run_wr_command (m : Nat) (i : Instr) (h : decode (encode i) = .command i) (s : State) (vs : List (Nat × Word))
    (n : Nat) :
    (HostInstr.wr (Reg.offset .ctrl) (.imm (encode i))).run m (aloneSession s vs n) =
      aloneSession (issue (encode i) (startOf i) (reply m .written s)) vs (n - 1) := by
  rw [run_wr_imm]
  exact aloneSession_write (by simp only [writeReg, writeCtrl, h, exec_eq_issue]) (issue_command_replies _ _) vs n

/-- An RD of DOUTn while BUSY = 0 (spec/20_memory.md R56). -/
theorem run_rd_dout {s : State} (hb : s.status.busy = false) (m : Nat) (k : Fin 4) (h : Nat) (vs : List (Nat × Word))
    (n : Nat) :
    (HostInstr.rd (Reg.offset (.dout k)) h).run m (aloneSession s vs n) =
      aloneSession (reply m (.data s.dout[k]) s) ((h, s.dout[k]) :: vs) (n - 1) := by
  rw [run_rd]
  simp [readReg, hb]

/-- RDOUT while BUSY = 0 reads the four words of the result (spec/30_encoding.md R77). -/
theorem run_rdOut {s : State} (hb : s.status.busy = false) (m a b c d : Nat) (vs : List (Nat × Word)) (n : Nat) :
    ∃ rs, runScript m (rdOut a b c d) (aloneSession s vs n) =
      aloneSession (s.withReplies rs)
        ((d, s.dout[3]) :: (c, s.dout[2]) :: (b, s.dout[1]) :: (a, s.dout[0]) :: vs) (n - 4) := by
  refine ⟨[Reply.mk m (.data s.dout[3]), Reply.mk m (.data s.dout[2]), Reply.mk m (.data s.dout[1]),
    Reply.mk m (.data s.dout[0])] ++ s.replies, ?_⟩
  simp only [rdOut, runScript]
  rw [run_rd_dout hb, run_rd_dout (s := reply m _ s) hb, run_rd_dout (s := reply m _ (reply m _ s)) hb,
    run_rd_dout (s := reply m _ (reply m _ (reply m _ s))) hb]
  rfl

/-- CHECK reads STATUS (spec/30_encoding.md R77). -/
theorem run_hostCheck (m h : Nat) (s : State) (vs : List (Nat × Word)) (n : Nat) :
    runScript m (hostCheck h) (aloneSession s vs n) =
      aloneSession (reply m (.data s.status.word) s) ((h, s.status.word) :: vs) (n - 1) := by
  simp only [hostCheck, runScript, run_rd, readReg]

/-! The parts of a call. -/

/-- A checked script that ends with a CHECK records the word it read (spec/43_host_usage.md R171). -/
theorem checkedScript_of_run {m : Nat} {script : List HostInstr} {c : Call} {t : State} {hs : Word}
    {vs : List (Nat × Word)} {n : Nat} (h : runScript m script c.session = aloneSession t ((0, hs) :: vs) n) :
    checkedScript m script c = { c with session := aloneSession t ((0, hs) :: vs) n, checks := hs :: c.checks } := by
  simp only [checkedScript, h]
  rfl

/-- A call fails exactly when its script halted or one of its CHECKs shows an error (spec/43_host_usage.md R171). -/
theorem callFailure_eq_none_iff (c : Call) :
    callFailure c = none ↔ c.session.halt = none ∧ ∀ hs ∈ c.checks, checkFailure hs = none := by
  simp only [callFailure]
  cases h : c.session.halt with
  | some w => simp
  | none => simp [List.findSome?_eq_none_iff]

/-- A CHECK shows no failure exactly when ERR = 0 (spec/43_host_usage.md R171). -/
theorem checkFailure_eq_none_iff (hs : Word) : checkFailure hs = none ↔ checkErr hs = false := by
  simp only [checkFailure]
  cases h : checkErr hs with
  | false => simp
  | true => simp only [if_true]; split <;> simp

theorem afterBlock_some (c : Call) (y : Block) (next : Block → Call → Call) : afterBlock (c, some y) next = next y c := rfl

theorem afterBlock_none (c : Call) (next : Block → Call → Call) : afterBlock (c, none) next = c := rfl

theorem runBlocks_nil (m : Nat) (d : Direction) (mode : ChainMode) (iv : Block) (k : Carry) (i : Nat) (c : Call) :
    runBlocks m d mode iv k i [] c = c := rfl

theorem runBlocks_cons (m : Nat) (d : Direction) (mode : ChainMode) (iv : Block) (k : Carry) (i : Nat) (x : Block)
    (xs : List Block) (c : Call) :
    runBlocks m d mode iv k i (x :: xs) c =
      afterBlock (coreBlock m (blockPlan d mode iv k i x).command (blockPlan d mode iv k i x).input c) fun y c =>
        runBlocks m d mode iv ((blockPlan d mode iv k i x).carry y) (i + 1) xs
          { c with out := (blockPlan d mode iv k i x).output y :: c.out } := rfl

/-- RDOUT while BUSY = 0 answers the block that DOUT holds (spec/20_memory.md R53). -/
theorem readResult_of_not_busy {s : State} (hb : s.status.busy = false) (m : Nat) (vs : List (Nat × Word)) (n : Nat)
    (checks : List Word) (out : List Block) :
    ∃ rs, readResult m { session := aloneSession s vs n, checks := checks, out := out } =
      ({ session := aloneSession (s.withReplies rs)
          ((4, s.dout[3]) :: (3, s.dout[2]) :: (2, s.dout[1]) :: (1, s.dout[0]) :: vs) (n - 4),
         checks := checks, out := out }, some (latchBytes s.dout)) := by
  obtain ⟨rs, h⟩ := run_rdOut hb m 1 2 3 4 vs n
  refine ⟨rs, ?_⟩
  have hd : #v[s.dout[0], s.dout[1], s.dout[2], s.dout[3]] = s.dout := by
    ext i hi
    interval_cases i <;> simp
  simp only [readResult, h]
  change (_, some (latchBytes #v[s.dout[0], s.dout[1], s.dout[2], s.dout[3]])) = _
  rw [hd]

/-! Buffers. -/

/-- A buffer split into blocks is those blocks' bytes in order (spec/43_host_usage.md R160). -/
theorem blockBuffer_of_bufferBlocks {bytes : List Byte} {blocks : List Block} (h : bufferBlocks bytes = some blocks) :
    blockBuffer blocks = bytes := by
  induction bytes using bufferBlocks.induct generalizing blocks with
  | case1 => simp only [bufferBlocks, Option.some.injEq] at h; subst h; rfl
  | case2 b0 b1 b2 b3 b4 b5 b6 b7 b8 b9 b10 b11 b12 b13 b14 b15 rest ih =>
    simp only [bufferBlocks, Option.map_eq_some_iff] at h
    obtain ⟨bs, hb, rfl⟩ := h
    simp only [blockBuffer, List.flatMap_cons] at ih ⊢
    rw [ih hb]; rfl
  | case3 l hn hl => simp [bufferBlocks] at h

/-- A buffer is refused exactly when its length is no multiple of 16 (spec/43_host_usage.md R160; log 12). -/
theorem bufferBlocks_eq_none_iff (bytes : List Byte) : bufferBlocks bytes = none ↔ bytes.length % 16 ≠ 0 := by
  induction bytes using bufferBlocks.induct with
  | case1 => simp [bufferBlocks]
  | case2 b0 b1 b2 b3 b4 b5 b6 b7 b8 b9 b10 b11 b12 b13 b14 b15 rest ih =>
    simp only [bufferBlocks, Option.map_eq_none_iff, ih, List.length_cons]
    omega
  | case3 l hn hl =>
    have hlen : 0 < l.length ∧ l.length < 16 := by
      refine ⟨List.length_pos_iff.2 hn, ?_⟩
      by_contra hge
      iterate 16 (rcases l with _ | ⟨_, l⟩; · simp at hge)
      exact hl _ _ _ _ _ _ _ _ _ _ _ _ _ _ _ _ _ rfl
    have hnone : bufferBlocks l = none := by simp [bufferBlocks]
    rw [hnone]
    simp only [true_iff]
    omega

end Sys2Proof.Machine
end

