-- ==== Sys2Proof/Tests/Slice0.lean ====
section
/-! SUPPORT. The model's own tests: words written out from the spec's encoding, the vectors of spec/95_test_vectors.md, and
for every statement with hypotheses a state and operands that meet them. -/

namespace Sys2Proof.Tests

open Sys2Proof Sys2Proof.Machine

/-! Helpers. -/

/-- The state a step leads to, if it goes on. -/
def nextOf (o : Host.Outcome State Fault Refusal) : Option State :=
  match o with
  | .next s => some s
  | .fault _ => none
  | .refused _ => none

/-- The 16 zero bytes. -/
def zeroBlock : Block := noValueLatch

/-- Start state K of spec/95_test_vectors.md section 2.6: some KEY_EXPAND has completed (STATUS = 0x0000000A). -/
def keyed : State :=
  State.reset.withStatus { busy := false, done := true, err := false, keyValid := true, errcode := 0 }

/-- A state with this command in flight: phase, CTRL word, KEY_VALID. -/
def inFlight (p : Phase) (w : Word) (kv : Bool) : State :=
  ((State.reset.withPhase p).withCtrl w).withStatus { busy := true, done := false, err := false, keyValid := kv, errcode := 0 }

/-- KEY_EXPAND in flight. -/
def busyKeyx : State := inFlight .keyx 0x00001001 false

/-- ENCRYPT in flight (STATUS = 0x00000009). -/
def busyEnc : State := inFlight .enc 0x00001002 true

/-- DECRYPT in flight. -/
def busyDec : State := inFlight .dec 0x00001003 true

/-- One pending event. -/
def pending (s : State) (e : Event) : State := s.withEvents [e]

/-- Master 0 writes a word at an offset of a window at 0. -/
def wr (off : Nat) (v : Word) : Event := .host 0 (.write off (.single 4) v)

/-- Master 0 reads a word at an offset of a window at 0. -/
def rd (off : Nat) : Event := .host 0 (.read off (.single 4))

/-- STATUS after one step. -/
def statusAfter (s : State) (e : Event) : Option Word := (nextOf (step (pending s e))).map (·.status.word)

/-- The newest answer after one step. -/
def answerAfter (s : State) (e : Event) : Option Response :=
  (nextOf (step (pending s e))).bind fun t => t.replies.head?.map (·.response)

/-! Well-formedness: the one check refuses what it must (spec/30_encoding.md R71). -/

theorem test_request_longer_than_255_refused : (Request.mk .encrypt 256).wellFormed = false := by decide

theorem test_request_longer_than_255_no_command : (Request.mk .keyExpand 300).command? = none := by decide

theorem test_request_of_255_command : (Request.mk .decrypt 255).command? = some (.decrypt 255) := by decide

/-! Decoding: words written out bit by bit from spec/30_encoding.md R70: RSV1, LEN, RSV0, CMD. -/

theorem test_decode_nop : decode 0b0000000000000000_11111111_0000_0000#32 = .command (.nop 255) := by decide

theorem test_decode_key_expand : decode 0b0000000000000000_00010000_0000_0001#32 = .command (.keyExpand 16) := by decide

theorem test_decode_encrypt : decode 0b0000000000000000_00001111_0000_0010#32 = .command (.encrypt 15) := by decide

theorem test_decode_decrypt : decode 0b0000000000000000_10000001_0000_0011#32 = .command (.decrypt 0x81) := by decide

theorem test_decode_reserved_command : decode 0b0000000000000000_00010000_0000_1111#32 = .illegal .reservedCommand := by decide

theorem test_decode_reserved_bits :
    decode 0b1000000000000000_00000000_0000_0000#32 = .illegal .reservedBits ∧
    decode 0b0000000000000000_00001000_0001_0010#32 = .illegal .reservedBits := by decide

theorem test_encode_canonical_words :
    encode (.nop 0) = 0x00000000 ∧ encode (.keyExpand 16) = 0x00001001 ∧ encode (.encrypt 16) = 0x00001002 ∧
    encode (.decrypt 16) = 0x00001003 := by decide

theorem test_decode_table_word :
    decodeTableWord 32 0x00000002 = some (.encrypt 0) ∧ decodeTableWord 32 0x00000004 = none := by decide

/-- The first step after reset runs the word that withFetchWord places. -/
theorem test_step_runs_fetch_word :
    (nextOf (step (State.reset.withFetchWord 32 0x00001001))).map (fun t => (t.phase, t.status.word, t.ctrl)) =
      some (.keyx, 0x00000001, 0x00001001) := by decide

/-! Primitives (spec/95_test_vectors.md section 2.1). -/

theorem test_rotl : rotl 0x80000001 1 = 0x00000003 ∧ rotl 0x12345678 32 = 0x12345678 ∧ rotl 0x12345678 33 = 0x2468ACF0 ∧
    rotl 0xDEADBEEF 31 = 0xEF56DF77 ∧ rotl 0x00000001 0xFFFFFFFF = 0x80000000 := by decide

theorem test_rotr : rotr 0x80000001 1 = 0xC0000000 ∧ rotr 0x12345678 33 = 0x091A2B3C ∧ rotr 0x12345678 4 = 0x81234567 ∧
    rotr 0xDEADBEEF 31 = 0xBD5B7DDF ∧ rotr 0x00000001 0xFFFFFFFF = 0x00000002 := by decide

theorem test_quadratic : quadratic 2 = 0x00000140 ∧ quadratic 0x7FFFFFFF = 0x00000030 ∧
    quadratic 0x12345678 = 0xC3C0DF09 := by decide

/-- V-KS2: the key in registers, and words of its schedule (spec/95_test_vectors.md section 2.2). -/
theorem test_key_schedule_ks2 :
    let s := keyExpand .le (latchBytes #v[0x67452301, 0xEFCDAB89, 0x34231201, 0x78675645])
    s[0] = 0x05479D38 ∧ s[21] = 0x79C1FA56 ∧ s[43] = 0x45F060D1 := by decide +kernel

/-- V-KAT1 in registers (spec/95_test_vectors.md section 2.3). -/
theorem test_encrypt_kat1 :
    packBytes (rc6Encrypt .le (keyExpand .le zeroBlock) zeroBlock) =
      #v[0x36A5C38F, 0x78F7B156, 0x4EDF29C1, 0x1EA44898] := by decide +kernel

/-- V-D5: DECRYPT of the zero block under the zero key (spec/95_test_vectors.md section 2.4). -/
theorem test_decrypt_d5 :
    rc6Decrypt .le (keyExpand .le zeroBlock) zeroBlock =
      #v[0xa1, 0xf2, 0x78, 0x9e, 0xfc, 0x34, 0x4f, 0xc4, 0x26, 0xbc, 0xc5, 0xee, 0x74, 0x62, 0xff, 0x59] := by decide +kernel

/-! STATUS after one CTRL write (spec/95_test_vectors.md section 2.6). -/

theorem test_status_nop : statusAfter State.reset (wr 0 0x0000FF00) = some 0x00000002 ∧
    statusAfter keyed (wr 0 0x00000000) = some 0x0000000A := by decide

theorem test_status_key_expand : statusAfter keyed (wr 0 0x00001001) = some 0x00000001 ∧
    statusAfter keyed (wr 0 0x00000F01) = some 0x00000024 := by decide

theorem test_status_encrypt : statusAfter State.reset (wr 0 0x00001002) = some 0x00000034 ∧
    statusAfter State.reset (wr 0 0x00000002) = some 0x00000014 ∧ statusAfter keyed (wr 0 0x00002002) = some 0x0000001C ∧
    statusAfter keyed (wr 0 0x00001002) = some 0x00000009 := by decide

theorem test_status_decrypt : statusAfter State.reset (wr 0 0x00001003) = some 0x00000034 ∧
    statusAfter keyed (wr 0 0x00001003) = some 0x00000009 := by decide

theorem test_status_illegal : statusAfter State.reset (wr 0 0x80000000) = some 0x00000044 ∧
    statusAfter keyed (wr 0 0x00000812) = some 0x0000004C ∧ statusAfter State.reset (wr 0 0x00011002) = some 0x00000044 := by
  decide

/-- E21 and A10: a refused CTRL write. -/
theorem test_busy_write : statusAfter busyEnc (wr 0 0x00001003) = some 0x0000005D ∧
    (nextOf (step (pending busyEnc (wr 0 0x00001003)))).map (·.ctrl) = some 0x00001002 := by decide

/-- E22: its completion. -/
theorem test_completion_after_busy_write :
    (seqStep (busyViolation busyEnc)).status.word = 0x0000005E := by decide

/-! Register access and reset (spec/95_test_vectors.md sections 2.7, 2.8). -/

theorem test_read_param : answerAfter State.reset (rd 0x08) = some (.data 0x20141010) := by decide

theorem test_write_status_ignored : nextOf (step (pending State.reset (wr 0x04 0xFFFFFFFF))) =
    some (reply 0 .written State.reset) := by decide

theorem test_key_reads_zero :
    answerAfter (State.reset.withKey #v[0x11223344, 0, 0, 0]) (rd 0x10) = some (.data 0) := by decide

theorem test_din_reads_back :
    (nextOf (step (pending State.reset (wr 0x28 0x11223344)))).map (·.din) = some #v[0, 0, 0x11223344, 0] ∧
    answerAfter (State.reset.withDin #v[0, 0, 0x11223344, 0]) (rd 0x28) = some (.data 0x11223344) := by decide

theorem test_bus_errors :
    answerAfter State.reset (rd 0x0C) = some (.busError 0x0C) ∧
    answerAfter State.reset (.host 3 (.read 0x04 (.single 1))) = some (.busError 0x04) ∧
    answerAfter State.reset (.host 3 (.write 0x20 (.single 2) 0)) = some (.busError 0x20) ∧
    answerAfter State.reset (rd 0x22) = some (.busError 0x22) := by decide

theorem test_reset_during_command : statusAfter busyEnc .reset = some 0x00000000 := by decide

theorem test_spelling : spell 0x00001002 = "ENCRYPT" ∧ spell 0x00000F02 = "ENCRYPT len=15" := by decide +kernel

/-- Example of spec/43_host_usage.md R164: the trailing bytes of counter block 2. -/
theorem test_counter_block : (counterBlock zeroBlock 2)[15] = 2 ∧ counterDin3 2 = 0x02000000 := by decide

/-! Calls of a host (spec/43_host_usage.md R160, R171, R172). -/

theorem test_buffer_of_whole_blocks : bufferBlocks (List.replicate 32 0) = some [zeroBlock, zeroBlock] := by decide

theorem test_ragged_buffer_refused : bufferBlocks (List.replicate 17 0) = none := by decide

/-- A key load with a wrong LEN is the document's ConfigurationError. -/
theorem test_load_key_wrong_length :
    callFailure (loadKey 0 15 zeroBlock (beginCall (aloneSession State.reset [] 0))) =
      some (.error .configurationError) := by decide

/-- A BusError fails the call as OperationFailed. -/
theorem test_bus_error_fails_call :
    callFailure (checkedScript 0 [.rd 0x0C 5] (beginCall (aloneSession keyed [] 0))) =
      some (.error .operationFailedBus) := by decide

/-- Another master's CTRL write while the block is in flight: BUSY_VIOLATION fails the call. -/
theorem test_interference_fails_call :
    callFailure (checkedScript 0 (commandScript (.encrypt 16) ++ hostCheck 0)
      (beginCall { aloneSession keyed [] 0 with others := [[], [.host 1 (.write 0 (.single 4) 0)]] })) =
      some (.error (.operationFailed .busyViolation)) := by decide +kernel

/-! Witnesses: states and operands that meet the hypotheses of the statements. -/

theorem witness_DecodeInvertsEncode : (Instr.encrypt 255).wellFormed = true := by decide

theorem witness_EncodeInvertsDecode : decode 0x0000FF03 = .command (.decrypt 255) := by decide

theorem witness_DecodeFollowsOpcodeMap :
    (0x0000FF00 : Word) &&& 0xFFFF00FF = 0 ∧ (0x00000001 : Word) &&& 0xFFFF00FF = 1 ∧
    (0x0000FF02 : Word) &&& 0xFFFF00FF = 2 ∧ (0x00001003 : Word) &&& 0xFFFF00FF = 3 ∧
    3 < ((0x0000FF04 : Word) &&& 0xFFFF00FF).toNat ∧ 3 < ((0xFFFFFFFF : Word) &&& 0xFFFF00FF).toNat := by decide

theorem witness_StepRunsDecodedCommand :
    (pending keyed (wr 0 0x00001002)).events =
      .host 0 (.write (windowBase (pending keyed (wr 0 0x00001002)).params + 0x00) (.single 4) 0x00001002) :: [] ∧
    decode 0x00001002 = .command (.encrypt 16) := by decide

theorem witness_NopAcknowledges : keyed.status.busy = false := by decide

theorem witness_KeyExpandStarts : State.reset.status.busy = false := by decide

theorem witness_KeyExpandWrongLength : keyed.status.busy = false ∧ (15 : BitVec 8) ≠ 16 ∧ (17 : BitVec 8) ≠ 16 := by decide

theorem witness_EncryptStarts : keyed.status.busy = false ∧ keyed.status.keyValid = true := by decide

theorem witness_EncryptWrongLength : keyed.status.busy = false ∧ (0 : BitVec 8) ≠ 16 ∧ (32 : BitVec 8) ≠ 16 := by decide

theorem witness_EncryptWithoutKey : State.reset.status.busy = false ∧ State.reset.status.keyValid = false := by decide

theorem witness_DecryptStarts : keyed.status.busy = false ∧ keyed.status.keyValid = true := by decide

theorem witness_DecryptRefusals :
    State.reset.status.busy = false ∧ ((16 : BitVec 8) ≠ 16 ∨ State.reset.status.keyValid = false) ∧
    keyed.status.busy = false ∧ ((15 : BitVec 8) ≠ 16 ∨ keyed.status.keyValid = false) := by decide

theorem witness_IllegalWordRaisesIllegalCmd :
    (pending keyed (wr 0 0x00000004)).events =
      .host 0 (.write (windowBase (pending keyed (wr 0 0x00000004)).params + 0x00) (.single 4) 0x00000004) :: [] ∧
    (pending keyed (wr 0 0x00000004)).status.busy = false ∧ 3 < ((0x00000004 : Word) &&& 0xFFFF00FF).toNat := by decide

theorem witness_BusyWriteRefused :
    (pending busyEnc (wr 0 0x00001003)).events =
      .host 0 (.write (windowBase (pending busyEnc (wr 0 0x00001003)).params + 0x00) (.single 4) 0x00001003) :: [] ∧
    (pending busyEnc (wr 0 0x00001003)).status.busy = true ∧ busyEnc.status.busy = true ∧ busyEnc.phase ≠ .idle ∧
    nextOf (exec (.decrypt 16) busyEnc) = some (busyViolation busyEnc) := by decide

theorem witness_ErrorPriority :
    (pending State.reset (wr 0 0x00000812)).events =
      .host 0 (.write (windowBase (pending State.reset (wr 0 0x00000812)).params + 0x00) (.single 4) 0x00000812) :: [] := by
  decide

theorem witness_AcceptedCommandEndsOneWay : keyed.status.busy = false ∧ keyed.phase = .idle := by decide

theorem witness_CompletionStep :
    (pending State.reset .seqComplete).events = .seqComplete :: [] ∧ (pending State.reset .seqComplete).phase = .idle ∧
    (pending busyKeyx .seqComplete).events = .seqComplete :: [] ∧ (pending busyKeyx .seqComplete).phase = .keyx ∧
    (pending busyEnc .seqComplete).events = .seqComplete :: [] ∧ (pending busyEnc .seqComplete).phase = .enc ∧
    (pending busyDec .seqComplete).events = .seqComplete :: [] ∧ (pending busyDec .seqComplete).phase = .dec := by decide

theorem witness_ResetClearsTheCore : (pending busyEnc .reset).events = .reset :: [] := by decide

/-- Each clause of BusReadReturns at a boundary offset: the fixed offsets, and registers 0 and 3 of each group. -/
theorem witness_BusReadReturns :
    (∀ off ∈ [0x00, 0x04, 0x08, 0x0C], (pending keyed (rd off)).events =
      .host 0 (.read (windowBase (pending keyed (rd off)).params + off) (.single 4)) :: []) ∧
    (∀ off ∈ [0x10 + 4 * (0 : Fin 4).val, 0x10 + 4 * (3 : Fin 4).val, 0x20 + 4 * (0 : Fin 4).val, 0x20 + 4 * (3 : Fin 4).val,
        0x30 + 4 * (0 : Fin 4).val, 0x30 + 4 * (3 : Fin 4).val], (pending busyEnc (rd off)).events =
      .host 0 (.read (windowBase (pending busyEnc (rd off)).params + off) (.single 4)) :: []) ∧
    (pending keyed (rd 0x3C)).status.busy = false ∧ (pending busyEnc (rd 0x3C)).status.busy = true := by decide

theorem witness_BusWriteEffects :
    ∀ off ∈ [0x04, 0x08, 0x0C, 0x10 + 4 * (0 : Fin 4).val, 0x10 + 4 * (3 : Fin 4).val, 0x20 + 4 * (0 : Fin 4).val,
        0x20 + 4 * (3 : Fin 4).val, 0x30 + 4 * (0 : Fin 4).val, 0x30 + 4 * (3 : Fin 4).val],
      (pending keyed (wr off 7)).events =
        .host 0 (.write (windowBase (pending keyed (wr off 7)).params + off) (.single 4) 7) :: [] := by decide

/-- Each way to a BusError at a boundary of the window: another shape at 0x3F, a misaligned word at 0x3E, the hole at 0x0C. -/
theorem witness_BusErrorChangesNothing :
    (0x3F < 0x40 ∧ Transfer.burst 2 4 ≠ .single 4 ∧
      (pending keyed (.host 1 (.read 0x3F (.burst 2 4)))).events =
        .host 1 (.read (windowBase keyed.params + 0x3F) (.burst 2 4)) :: []) ∧
    (0x3E < 0x40 ∧ 0x3E % 4 ≠ 0 ∧
      (pending keyed (wr 0x3E 7)).events = .host 0 (.write (windowBase keyed.params + 0x3E) (.single 4) 7) :: []) ∧
    (0x0C < 0x40 ∧ (pending keyed (rd 0x0C)).events = .host 0 (.read (windowBase keyed.params + 0x0C) (.single 4)) :: []) := by
  decide

theorem witness_OutsideWindowFaults :
    (pending keyed (rd 0x40)).events = .host 0 (.read 0x40 (.single 4)) :: [] ∧
    windowBase (pending keyed (rd 0x40)).params + 0x40 ≤ (Access.read 0x40 (.single 4)).addr ∧
    (rd 0x3F).concernsCore { baseIndex := 1, wordOrder := .be } = false ∧
    (Access.read 0x3F (.single 4)).addr < windowBase { baseIndex := 1, wordOrder := .be } := by decide

theorem witness_Invariant_busyKeyx : Invariant busyKeyx := by
  constructor <;> decide

theorem witness_StepKeepsInvariant :
    Invariant busyKeyx ∧ step busyKeyx = .next (completeKeyExpand busyKeyx) :=
  ⟨witness_Invariant_busyKeyx, rfl⟩

/-- A completion that changes DOUT: ENCRYPT of the zero block under round keys of zero. -/
theorem witness_DoutWrittenOnlyByCompletion :
    step busyEnc = .next (completeEncrypt busyEnc) ∧
    (completeEncrypt (busyEnc.withXl (latchBytes #v[1, 2, 3, 4]))).dout ≠ (busyEnc.withXl (latchBytes #v[1, 2, 3, 4])).dout ∧
    step (busyEnc.withXl (latchBytes #v[1, 2, 3, 4])) =
      .next (completeEncrypt (busyEnc.withXl (latchBytes #v[1, 2, 3, 4]))) :=
  ⟨rfl, by decide +kernel, rfl⟩

theorem witness_RoundKeysWrittenOnlyByKeyExpand :
    step busyKeyx = .next (completeKeyExpand busyKeyx) ∧ (completeKeyExpand busyKeyx).roundKeys ≠ busyKeyx.roundKeys :=
  ⟨rfl, by decide +kernel⟩

/-- KEY_VALID set by a completion, cleared by reset and by a failed KEY_EXPAND. -/
theorem witness_KeyValidLifeCycle :
    (step busyKeyx = .next (completeKeyExpand busyKeyx) ∧ busyKeyx.status.keyValid = false ∧
      (completeKeyExpand busyKeyx).status.keyValid = true) ∧
    (keyed.status.keyValid = true ∧
      (nextOf (step (pending keyed .reset))).map (·.status.keyValid) = some false ∧
      (nextOf (step (pending keyed (wr 0 0x00000F01)))).map (·.status.keyValid) = some false) :=
  ⟨⟨rfl, by decide, by decide⟩, by decide⟩

/-- ERR cleared by NOP and by reset, set by a refused write and by a failed command. -/
theorem witness_ErrLifeCycle :
    (busyViolation keyed).status.err = true ∧
    (nextOf (step (pending (busyViolation keyed) (wr 0 0)))).map (·.status.err) = some false ∧
    (nextOf (step (pending (busyViolation keyed) .reset))).map (·.status.err) = some false ∧
    busyEnc.status.err = false ∧ (nextOf (step (pending busyEnc (wr 0 0)))).map (·.status.err) = some true ∧
    keyed.status.err = false ∧ (nextOf (step (pending keyed (wr 0 4)))).map (·.status.err) = some true := by decide

/-- BUSY set by an accepted KEY_EXPAND, cleared by its completion and by reset. -/
theorem witness_BusyLifeCycle :
    Invariant (pending State.reset (wr 0 0x00001001)) ∧
    (nextOf (step (pending State.reset (wr 0 0x00001001)))).map (·.status.busy) = some true ∧
    Invariant busyKeyx ∧ step busyKeyx = .next (completeKeyExpand busyKeyx) ∧
    (completeKeyExpand busyKeyx).status.busy = false ∧
    (nextOf (step (pending busyKeyx .reset))).map (·.status.busy) = some false :=
  ⟨by constructor <;> decide, by decide, witness_Invariant_busyKeyx, rfl, by decide, by decide⟩

theorem witness_CtrlHoldsLastAccepted :
    nextAccepts 0x00000812 (pending keyed (wr 0 0x00000812)) ∧
    (nextOf (step (pending keyed (wr 0 0x00000812)))).map (·.ctrl) = some 0x00000812 ∧
    nextIsReset (pending busyEnc .reset) ∧ (nextOf (step (pending busyEnc .reset))).map (·.ctrl) = some 0 :=
  ⟨⟨⟨0, by decide⟩, by decide⟩, by decide, rfl, by decide⟩

theorem witness_OperandRegistersWrittenOnlyByHost :
    (nextOf (step (pending busyEnc (wr 0x1C 9)))).map (·.key) = some #v[0, 0, 0, 9] ∧ busyEnc.key = #v[0, 0, 0, 0] ∧
    (nextOf (step (pending busyEnc (wr 0x20 9)))).map (·.din) = some #v[9, 0, 0, 0] ∧ busyEnc.din = #v[0, 0, 0, 0] := by decide

theorem witness_ConfigurationIsFixed : step State.reset = .next State.reset := rfl

theorem witness_NoCancellation :
    Invariant (pending busyKeyx (wr 0 0)) ∧ (pending busyKeyx (wr 0 0)).phase ≠ .idle ∧
    nextOf (step (pending busyKeyx (wr 0 0))) = some (busyViolation (reply 0 .written busyKeyx)) :=
  ⟨by constructor <;> decide, by decide, by decide⟩

theorem witness_OnlyForeignAccessStops :
    ∀ e, (pending keyed (rd 0x3C)).events.head? = some e → e.concernsCore (pending keyed (rd 0x3C)).params = true := by
  intro e h
  cases h
  decide

theorem witness_CommandInFlightCompletes :
    (∀ e ∈ (busyEnc.withEvents [wr 0 0, rd 4, wr 0x2C 1]).events,
      e.concernsCore (busyEnc.withEvents [wr 0 0, rd 4, wr 0x2C 1]).params = true) ∧
    (busyEnc.withEvents [wr 0 0, rd 4, wr 0x2C 1]).phase ≠ .idle := by decide

theorem witness_HostAccessesDoNotReachCommandInFlight :
    busyEnc.status.busy = true ∧ busyEnc.phase ≠ .idle ∧ (∀ e ∈ [wr 0x20 1, wr 0 0], ∃ m a, e = .host m a) ∧
    runEvents [wr 0x20 1, wr 0 0] busyEnc =
      .next (busyViolation (reply 0 .written ((reply 0 .written busyEnc).withDin #v[1, 0, 0, 0]))) :=
  ⟨by decide, by decide, by intro e h; simp only [wr, List.mem_cons, List.not_mem_nil, or_false] at h; rcases h with rfl | rfl <;> exact ⟨_, _, rfl⟩, rfl⟩

theorem witness_DeadHiddenStateIsNotObservable :
    Invariant State.reset ∧ HiddenAlike State.reset ((State.reset.withRoundKeys (Vector.replicate 44 1)).withXl (latchBytes #v[1, 2, 3, 4])) :=
  ⟨by constructor <;> decide, by constructor <;> first | rfl | decide⟩

theorem witness_KeyExpandDeliversSchedule :
    State.reset.status.busy = false ∧ (∀ e ∈ [rd 4], ∃ m a, e = .host m a) ∧
    (nextOf (exec (.keyExpand 16) State.reset)).bind (fun u => (nextOf (runEvents [rd 4] u)).map (·.phase)) = some .keyx :=
  ⟨by decide, by intro e h; simp only [rd, List.mem_singleton] at h; exact ⟨_, _, h⟩, by decide⟩

theorem witness_BlockCommandDeliversTransform :
    keyed.status.busy = false ∧ keyed.status.keyValid = true ∧ (∀ e ∈ [wr 0x20 5], ∃ m a, e = .host m a) ∧
    (nextOf (exec (.encrypt 16) keyed)).bind (fun u => (nextOf (runEvents [wr 0x20 5] u)).map (·.phase)) = some .enc ∧
    (nextOf (exec (.decrypt 16) keyed)).bind (fun u => (nextOf (runEvents [wr 0x20 5] u)).map (·.phase)) = some .dec :=
  ⟨by decide, by decide, by intro e h; simp only [wr, List.mem_singleton] at h; exact ⟨_, _, h⟩, by decide, by decide⟩

theorem witness_DecryptInvertsEncrypt : keyed.status.busy = false ∧ keyed.status.keyValid = true := by decide

theorem witness_PollingHostReadsCiphertext :
    keyed.status.busy = false ∧ keyed.phase = .idle ∧ keyed.status.keyValid = true := by decide

theorem witness_PollingHostReadsPlaintext :
    keyed.status.busy = false ∧ keyed.phase = .idle ∧ keyed.status.keyValid = true := by decide

theorem witness_ModeCallRunsOnTheCore :
    keyed.status.busy = false ∧ keyed.phase = .idle ∧ keyed.status.keyValid = true := by decide

/-- A call of one block that puts out its buffer, and a core without a key. -/
theorem witness_CallFailsWhole :
    (modeCall 0 .encrypt .cbc zeroBlock [zeroBlock] (aloneSession keyed [] 0)).2.toOption.map List.length = some 1 ∧
    State.reset.status.busy = false ∧ State.reset.phase = .idle ∧ State.reset.status.keyValid = false ∧
    [zeroBlock] ≠ [] ∧ modeAllows .cbc [zeroBlock].length = true :=
  ⟨by decide +kernel, by decide, by decide, by decide, by simp, rfl⟩

theorem witness_HostErrorsAreTyped :
    keyed.status.err = false ∧
    (∀ c ∈ [1, 2, 3, 4, 5], ({ keyed.status with err := true, errcode := c } : Status).err = true ∧
      ({ keyed.status with err := true, errcode := c } : Status).errcode = c) := by decide

theorem witness_CounterBlockInDin : 0 < 2 ^ 32 ∧ 0xFFFFFFFF < 2 ^ 32 := by decide

theorem witness_ChainingModesInvert :
    (∀ x, (BlockOps.mk id id).d ((BlockOps.mk id id).e x) = x) ∧
    modeEncrypt .ctr (BlockOps.mk id id) zeroBlock [zeroBlock] = some [xorBlock zeroBlock (counterBlock zeroBlock 0)] :=
  ⟨fun _ => rfl, rfl⟩

theorem witness_CbcDecryptIsBlockwise : 0 < [zeroBlock, zeroBlock].length ∧ 1 < [zeroBlock, zeroBlock].length := by decide

end Sys2Proof.Tests
end

