-- ==== Sys2Proof/Proofs/Rotation.lean ====
section
/-! PROOF. The rotations of R11: the model's shifts are the library's rotations, and the rotations undo each other. -/

namespace Sys2Proof.Machine

/-- At any width a rotation to the right undoes the rotation to the left by the same amount: bit `i` of the result is bit
`n % w + i` of the rotated word, and that is bit `i` of `x`, whether or not `n % w + i` wraps around. -/
theorem rotateRight_rotateLeft {w : Nat} (x : BitVec w) (n : Nat) : (x.rotateLeft n).rotateRight n = x := by
  refine BitVec.eq_of_getElem_eq fun i hi => ?_
  have hn : n % w < w := Nat.mod_lt _ (by omega)
  rw [BitVec.getElem_rotateRight]
  split
  · simp [BitVec.getElem_rotateLeft]
  · have hlow : i - (w - n % w) < n % w := by omega
    have hback : w - n % w + (i - (w - n % w)) = i := by omega
    simp [BitVec.getElem_rotateLeft, hlow, hback]

/-- At any width a rotation to the left undoes the rotation to the right by the same amount. -/
theorem rotateLeft_rotateRight {w : Nat} (x : BitVec w) (n : Nat) : (x.rotateRight n).rotateLeft n = x := by
  refine BitVec.eq_of_getElem_eq fun i hi => ?_
  have hn : n % w < w := Nat.mod_lt _ (by omega)
  rw [BitVec.getElem_rotateLeft]
  split
  · simp [BitVec.getElem_rotateRight]
  · have hlow : i - n % w < w - n % w := by omega
    have hback : n % w + (i - n % w) = i := by omega
    simp [BitVec.getElem_rotateRight, hlow, hback]

/-- `rotl` is the library's rotation. Its case of an amount 0 only spares the shift by the whole width, which gives 0
(spec/00_scope.md R11). -/
theorem rotl_eq_rotateLeft (x : Word) (n : Nat) : rotl x n = x.rotateLeft n := by
  rw [rotl, BitVec.rotateLeft_def]
  split
  · next h => simp [h, BitVec.ushiftRight_eq_zero]
  · rfl

/-- `rotr` is the library's rotation (spec/00_scope.md R11). -/
theorem rotr_eq_rotateRight (x : Word) (n : Nat) : rotr x n = x.rotateRight n := by
  rw [rotr, BitVec.rotateRight_def]
  split
  · next h => simp [h]
  · rfl

/-- Rotation goes by the remainder of the amount mod 32 (spec/00_scope.md R11). -/
theorem rotl_mod (x : Word) (n : Nat) : rotl x (n % 32) = rotl x n := by
  rw [rotl_eq_rotateLeft, rotl_eq_rotateLeft, BitVec.rotateLeft_mod_eq_rotateLeft]

@[simp] theorem rotr_rotl (x : Word) (n : Nat) : rotr (rotl x n) n = x := by
  rw [rotl_eq_rotateLeft, rotr_eq_rotateRight, rotateRight_rotateLeft]

@[simp] theorem rotl_rotr (x : Word) (n : Nat) : rotl (rotr x n) n = x := by
  rw [rotl_eq_rotateLeft, rotr_eq_rotateRight, rotateLeft_rotateRight]

/-- The five low bits of a word are its value mod 32 (spec/00_scope.md R10). -/
theorem toNat_lg5 (y : Word) : (lg5 y).toNat = y.toNat % 32 := by
  simp [lg5]

/-- Settles O44: the rotations are the library's, whose two inverse laws hold bit by bit, and the five low bits of a word
amount are its remainder mod 32. -/
theorem rotationRules : Obligations.RotationRules := by
  intro x n
  refine ⟨?_, ?_, rotr_rotl x n, rotl_rotr x n, fun y => ?_⟩
  · rw [BitVec.rotateLeft_mod_eq_rotateLeft, rotl_eq_rotateLeft]
  · rw [BitVec.rotateRight_mod_eq_rotateRight, rotr_eq_rotateRight]
  · rw [toNat_lg5, rotl_mod]

end Sys2Proof.Machine
end

