-- ==== Sys2Proof/Proofs/Configuration.lean ====
section
/-! PROOF. No agent's step writes the configuration, BASE and WORD_ORDER (spec/20_memory.md R54). -/

namespace Sys2Proof.Machine

/-- A command's own part of the acceptance keeps the configuration. -/
@[simp] theorem startOf_params (i : Instr) (s : State) : (startOf i s).params = s.params := by
  cases i with
  | nop => rfl
  | keyExpand n =>
    rcases startKeyExpand_cases (operandLength n) s with ⟨_, h⟩ | ⟨_, h⟩ <;> rw [startOf, h]
  | encrypt n =>
    rcases startBlock_cases .enc (operandLength n) s with ⟨_, h⟩ | ⟨_, _, h⟩ | ⟨_, _, h⟩ <;> rw [startOf, h]
  | decrypt n =>
    rcases startBlock_cases .dec (operandLength n) s with ⟨_, h⟩ | ⟨_, _, h⟩ | ⟨_, _, h⟩ <;> rw [startOf, h]

/-- Issuing a word keeps the configuration, refused or accepted, when the word's own part of the acceptance does. -/
theorem issue_params {start : State → State} (hstart : ∀ u, (start u).params = u.params) (v : Word) (s : State) :
    (issue v start s).params = s.params := by
  cases hb : s.status.busy with
  | true => rw [issue_of_busy hb, busyViolation_eq]
  | false => rw [issue_of_idle hb, hstart, beginAccept_eq]

/-- SEQ keeps the configuration, in every phase. -/
@[simp] theorem seqStep_params (s : State) : (seqStep s).params = s.params := by
  rcases seqStep_cases s with ⟨_, h⟩ | ⟨_, h⟩ | ⟨_, h⟩ | ⟨_, h⟩
  · rw [h]
  · rw [h, completeKeyExpand_eq]
  · rw [h, completeEncrypt_eq]
  · rw [h, completeDecrypt_eq]

/-- An access of a host keeps the configuration: an answer, a store to KEY or DIN, or a word issued. -/
theorem hostAccess_params {m : Nat} {a : Access} {s t : State} (h : hostAccess m a s = .next t) :
    t.params = s.params := by
  rcases hostAccess_next_cases h with
    ⟨_, _, _, rfl⟩ | ⟨_, _, _, rfl⟩ | ⟨_, _, _, rfl⟩ | ⟨v, i, _, _, rfl⟩ | ⟨v, _, _, _, rfl⟩
  · rfl
  · rfl
  · rfl
  · exact issue_params (startOf_params i) (encode i) (reply m .written s)
  · exact issue_params (start := raiseCoreError .illegalCmd) (fun _ => rfl) v (reply m .written s)

/-- Every step that gives a next state keeps the configuration. -/
theorem step_params {s t : State} (h : step s = .next t) : t.params = s.params := by
  rcases step_next_cases h with ⟨_, rfl⟩ | ⟨_, _, rfl⟩ | ⟨_, _, rfl⟩ | ⟨_, _, _, _, hacc⟩
  · exact seqStep_params s
  · rw [seqStep_params, State.withEvents_params]
  · rw [resetCore_params, State.withEvents_params]
  · rw [hostAccess_params hacc, State.withEvents_params]

/-- Settles O38, by the cases of a step: SEQ, reset and a host's access each keep the configuration. -/
theorem configurationIsFixed : Obligations.ConfigurationIsFixed :=
  fun _ _ h => step_params h

end Sys2Proof.Machine
end

