-- ==== Sys2Proof/Proofs/CommandWords.lean ====
section
/-! PROOF. A word that decodes to a command is that command's word, and its bits outside LEN are CMD
(spec/30_encoding.md R70, R73, R74). -/

namespace Sys2Proof

/-- A word whose reserved fields are zero is the command word of its CMD and LEN (spec/30_encoding.md R70). -/
theorem commandWord_of_reserved_zero {v : Word} (h0 : rsv0Field v = 0) (h1 : rsv1Field v = 0) :
    commandWord (lenField v) (cmdField v) = v :=
  calc commandWord (lenField v) (cmdField v)
    _ = rsv1Field v ++ lenField v ++ rsv0Field v ++ cmdField v := by rw [h0, h1]; rfl
    _ = v := word_of_fields v

/-- A word that decodes to a command is that command's word (spec/30_encoding.md R74). -/
theorem encode_of_decode {v : Word} {i : Instr} (h : decode v = .command i) : encode i = v := by
  unfold decode at h
  split at h
  · cases h
  next hrsv =>
    obtain ⟨h0, h1⟩ := not_or.1 hrsv
    have hv := commandWord_of_reserved_zero (not_not.1 h0) (not_not.1 h1)
    split_ifs at h with hcmd hcmd hcmd hcmd <;> cases h <;> rw [hcmd] at hv <;> exact hv

/-- Outside its LEN field a command word is its CMD (spec/30_encoding.md R73). -/
theorem commandWord_and_mask (len : BitVec 8) (cmd : BitVec 4) :
    commandWord len cmd &&& 0xFFFF00FF = cmd.setWidth 32 := by
  have hmask : ∀ i < 32, (0xFFFF00FF : Word).getLsbD i = decide (i < 8 ∨ 16 ≤ i) := by decide
  refine BitVec.eq_of_getLsbD_eq fun i hi => ?_
  rw [BitVec.getLsbD_and, commandWord_getLsbD, hmask i hi, BitVec.getLsbD_setWidth]
  by_cases hlow : i < 4
  · simp [hlow, hi, show i < 8 by omega]
  · have hcmd : cmd.getLsbD i = false := BitVec.getLsbD_of_ge cmd i (by omega)
    simp only [hlow, hcmd, if_false, Bool.and_false]
    split_ifs with h8 h16
    · rfl
    · simp [h8, h16]
    · rfl

end Sys2Proof
end

