-- ==== Sys2Proof/Proofs/StepEffects.lean ====
section
/-! PROOF. What a step can do, in the terms of Safety: which step it was, and the state it leads to. Every statement about
all steps is a case analysis over these ways. -/

namespace Sys2Proof.Machine

/-! The step that a predicate of Safety names. -/

/-- A reset event, when it is next, resets the core. -/
theorem step_of_nextIsReset {s : State} (h : nextIsReset s) : ∃ es, step s = .next (resetCore (s.withEvents es)) := by
  obtain ⟨es, he⟩ := List.head?_eq_some_iff.1 h
  exact ⟨es, by rw [step_cons he]; rfl⟩

/-- A host's legal write, when it is next, is consumed and answered, and writes its register. -/
theorem step_of_nextWrites {s : State} {r : Reg} {v : Word} (h : nextWrites r v s) :
    ∃ es rs, step s = writeReg r v { s with events := es, replies := rs } := by
  obtain ⟨m, hm⟩ := h
  obtain ⟨es, he⟩ := List.head?_eq_some_iff.1 hm
  exact ⟨es, _, by rw [step_cons he]; exact hostAccess_write_reg m r v (s.withEvents es)⟩

/-! What the acceptance of a word can do. -/

/-- The states the acceptance of the word `v` can lead to from `s` (spec/40_control.md R90, R91). -/
inductive Accepted (v : Word) (s : State) : State → Prop where
  /-- NOP (spec/40_control.md R95) -/
  | acknowledged : Accepted v s { s with
      ctrl := v, status := { s.status with done := true, err := false, errcode := 0 } }
  /-- a word or a block command that fails its checks (spec/60_exceptions.md R182) -/
  | failed (code : ErrCode) (hcode : code ≠ .none) : Accepted v s { s with
      ctrl := v, status := { s.status with done := false, err := true, errcode := code.bits } }
  /-- KEY_EXPAND with LEN ≠ 16 (spec/41_key_schedule.md R112) -/
  | keyRefused (hv : v &&& 0xFFFF00FF = 1) : Accepted v s { s with
      ctrl := v,
      status := { s.status with done := false, err := true, keyValid := false, errcode := ErrCode.configError.bits } }
  /-- KEY_EXPAND goes busy (spec/41_key_schedule.md R111) -/
  | keyStarted (hv : v = 0x00001001) : Accepted v s { s with
      ctrl := v, kl := latchBytes s.key, phase := .keyx,
      status := { busy := true, done := false, err := false, keyValid := false, errcode := 0 } }
  /-- a block command goes busy (spec/42_block_cipher.md R140, R150) -/
  | blockStarted (p : Phase) (hv : (p = .enc ∧ v = 0x00001002) ∨ (p = .dec ∧ v = 0x00001003))
      (hkey : s.status.keyValid = true) : Accepted v s { s with
      ctrl := v, xl := latchBytes s.din, phase := p,
      status := { s.status with busy := true, done := false, err := false, errcode := 0 } }

/-- A command issued to a core that is not busy is accepted. -/
theorem accepted_of_command (i : Instr) {s : State} (hb : s.status.busy = false) :
    Accepted (encode i) s (issue (encode i) (startOf i) s) := by
  rcases acceptance_cases i s hb with
    ⟨_, h⟩ | ⟨hi, _, h⟩ | ⟨rfl, h⟩ | ⟨_, _, h⟩ | ⟨_, _, h⟩ | ⟨rfl, hk, h⟩ | ⟨rfl, hk, h⟩ <;> rw [h]
  · exact .acknowledged
  · cases i with
    | keyExpand len => exact .keyRefused (commandWord_and_mask len 1)
    | nop | encrypt | decrypt => cases hi
  · exact .keyStarted rfl
  · exact .failed .invalidInput (by decide)
  · exact .failed .noKey (by decide)
  · exact .blockStarted .enc (.inl ⟨rfl, rfl⟩) hk
  · exact .blockStarted .dec (.inr ⟨rfl, rfl⟩) hk

/-- A word issued to a core that is not busy is accepted, whatever it decodes to (spec/40_control.md R90). -/
theorem accepted_of_writeCtrl {v : Word} {s t : State} (hb : s.status.busy = false) (h : writeCtrl v s = .next t) :
    Accepted v s t := by
  rcases writeCtrl_cases v s with ⟨i, hd, hw⟩ | ⟨_, _, hw⟩ <;> (rw [hw] at h; cases h)
  · rw [← encode_of_decode hd]
    exact accepted_of_command i hb
  · rw [issue_of_idle hb]
    exact .failed .illegalCmd (by decide)

/-- A word written to CTRL while BUSY = 1 is refused, whatever it decodes to (spec/40_control.md R96). -/
theorem writeCtrl_of_busy (v : Word) {s : State} (hb : s.status.busy = true) :
    writeCtrl v s = .next (busyViolation s) := by
  rcases writeCtrl_cases v s with ⟨i, _, hw⟩ | ⟨_, _, hw⟩ <;> rw [hw, issue_of_busy hb]

/-- An accepted word, when its write is next, is accepted by the step. -/
theorem accepted_of_step {s t : State} {v : Word} (hnext : nextAccepts v s) (h : step s = .next t) :
    ∃ es rs, Accepted v { s with events := es, replies := rs } t := by
  obtain ⟨hw, hb⟩ := hnext
  obtain ⟨es, rs, hs⟩ := step_of_nextWrites hw
  exact ⟨es, rs, accepted_of_writeCtrl hb (hs.symm.trans h)⟩

/-- Acceptance stores the word in CTRL (spec/40_control.md R90). -/
theorem Accepted.ctrl_eq {v : Word} {s t : State} (h : Accepted v s t) : t.ctrl = v := by
  cases h <;> rfl

/-- No acceptance writes the operand registers, DOUT or S (spec/60_exceptions.md R182). -/
theorem Accepted.frame {v : Word} {s t : State} (h : Accepted v s t) :
    t.key = s.key ∧ t.din = s.din ∧ t.dout = s.dout ∧ t.roundKeys = s.roundKeys := by
  cases h <;> exact ⟨rfl, rfl, rfl, rfl⟩

/-! What a step can do. -/

/-- The states a step can lead to from `s`, by the agent that makes it and by what a host's access does. The pending events,
the replies and the draws are the model's record (logs 3, 4, 5), so any list and count stands for them. -/
inductive Stepped (s : State) : State → Prop where
  /-- SEQ has no command in flight (spec/40_control.md R97) -/
  | nothingCompleted (es : List Event) (hnext : nextCompletes .idle s) : Stepped s { s with events := es }
  /-- SEQ completes a KEY_EXPAND (spec/40_control.md R97, spec/41_key_schedule.md R116) -/
  | keyCompleted (es : List Event) (hnext : nextCompletes .keyx s) : Stepped s { s with
      events := es, roundKeys := keyExpand s.params.wordOrder s.kl, ks := KeyWork.noValue, phase := .idle,
      status := { s.status with keyValid := true, busy := false, done := true } }
  /-- SEQ completes an ENCRYPT or DECRYPT (spec/40_control.md R97, spec/42_block_cipher.md R141, R151) -/
  | blockCompleted (es : List Event) (w : BlockWork)
      (hnext : (nextCompletes .enc s ∧ w = encryptWork s.params.wordOrder s.roundKeys s.xl) ∨
        (nextCompletes .dec s ∧ w = decryptWork s.params.wordOrder s.roundKeys s.xl)) : Stepped s { s with
      events := es, work := w, dout := packBytes (storeBlock s.params.wordOrder w), phase := .idle,
      status := { s.status with busy := false, done := true } }
  /-- RST steps (spec/70_reset_and_hazards.md R200) -/
  | reset (es : List Event) (hnext : nextIsReset s) : Stepped s (resetCore (s.withEvents es))
  /-- a host's access is answered and no more: a read, an ignored write or a BusError (spec/20_memory.md R56 to R58) -/
  | answered (es : List Event) (rs : List Reply) (n : Nat) :
      Stepped s { s with events := es, replies := rs, draws := n }
  /-- a host writes KEYn (spec/10_state.md R29) -/
  | keyStored (es : List Event) (rs : List Reply) (n : Fin 4) (v : Word) (hnext : nextWrites (.key n) v s) :
      Stepped s { s with events := es, replies := rs, key := s.key.set n v }
  /-- a host writes DINn (spec/10_state.md R30) -/
  | dinStored (es : List Event) (rs : List Reply) (n : Fin 4) (v : Word) (hnext : nextWrites (.din n) v s) :
      Stepped s { s with events := es, replies := rs, din := s.din.set n v }
  /-- a CTRL write is refused (spec/40_control.md R96) -/
  | refused (es : List Event) (rs : List Reply) (v : Word) (hnext : nextWrites .ctrl v s) (hb : s.status.busy = true) :
      Stepped s { s with
        events := es, replies := rs, status := { s.status with err := true, errcode := ErrCode.busyViolation.bits } }
  /-- a CTRL write is accepted (spec/40_control.md R90) -/
  | accepted (es : List Event) (rs : List Reply) (v : Word) (t : State) (hnext : nextAccepts v s)
      (hacc : Accepted v { s with events := es, replies := rs } t) : Stepped s t

/-- A word issued to CTRL is refused or accepted, as BUSY says (spec/60_exceptions.md R185). -/
theorem stepped_of_writeCtrl {s t : State} {v : Word} {es : List Event} {rs : List Reply} (hnext : nextWrites .ctrl v s)
    (h : writeCtrl v { s with events := es, replies := rs } = .next t) : Stepped s t := by
  cases hb : s.status.busy with
  | true =>
    cases h.symm.trans (writeCtrl_of_busy v hb)
    exact .refused es rs v hnext hb
  | false => exact .accepted es rs v t ⟨hnext, hb⟩ (accepted_of_writeCtrl hb h)

/-- The step of SEQ, phase by phase (spec/40_control.md R97). -/
theorem stepped_of_seqStep {s : State} (es : List Event)
    (hnext : s.events.head? = none ∨ s.events.head? = some .seqComplete) :
    Stepped s (seqStep (s.withEvents es)) := by
  rcases seqStep_cases (s.withEvents es) with ⟨hp, h⟩ | ⟨hp, h⟩ | ⟨hp, h⟩ | ⟨hp, h⟩ <;> rw [h]
  · exact .nothingCompleted es ⟨hp, hnext⟩
  · rw [completeKeyExpand_eq]
    exact .keyCompleted es ⟨hp, hnext⟩
  · rw [completeEncrypt_eq]
    exact .blockCompleted es _ (.inl ⟨⟨hp, hnext⟩, rfl⟩)
  · rw [completeDecrypt_eq]
    exact .blockCompleted es _ (.inr ⟨⟨hp, hnext⟩, rfl⟩)

/-- Every step that gives a next state is one of these. -/
theorem stepped_of_step {s t : State} (h : step s = .next t) : Stepped s t := by
  rcases step_next_cases h with ⟨he, rfl⟩ | ⟨es, he, rfl⟩ | ⟨es, he, rfl⟩ | ⟨m, a, es, he, hacc⟩
  · have hs : s.withEvents [] = s := by rw [← he]; rfl
    simpa only [hs] using stepped_of_seqStep (s := s) [] (.inl (by simp [he]))
  · exact stepped_of_seqStep es (.inr (by simp [he]))
  · exact .reset es (by simp [nextIsReset, he])
  · have hnext : ∀ {r v}, a = .write (windowBase s.params + Reg.offset r) (.single 4) v → nextWrites r v s :=
      fun ha => ⟨m, by simp [he, ha]⟩
    rcases hostAccess_next_cases hacc with
      ⟨_, _, n, rfl⟩ | ⟨n, v, ha, rfl⟩ | ⟨n, v, ha, rfl⟩ | ⟨v, i, ha, hd, rfl⟩ | ⟨v, why, ha, hd, rfl⟩
    · exact .answered es _ n
    · exact .keyStored es _ n v (hnext ha)
    · exact .dinStored es _ n v (hnext ha)
    · exact stepped_of_writeCtrl (hnext ha) (by simp only [writeCtrl, hd, exec_eq_issue]; rfl)
    · exact stepped_of_writeCtrl (hnext ha) (by simp only [writeCtrl, hd]; rfl)

end Sys2Proof.Machine
end

