-- ==== Sys2Proof/Proofs/LifeCycles.lean ====
section
/-! PROOF. What a command's acceptance writes, and which steps write each register and each field of STATUS
(spec/10_state.md R23, R25, R26, R28 to R32, R35). -/

namespace Sys2Proof.Machine

/-- Settles O18, by the ways of an acceptance: KL is written by a KEY_EXPAND that goes busy, XL by a block command that goes
busy, and neither by a refusal or by any other way. -/
theorem commandFrame : Obligations.CommandFrame := by
  intro i s
  refine ⟨_, exec_eq_issue i s, ?_⟩
  cases hb : s.status.busy with
  | true => simp [issue_of_busy hb, busyViolation_eq]
  | false =>
    rcases acceptance_cases i s hb with
      ⟨_, h⟩ | ⟨_, _, h⟩ | ⟨hi, h⟩ | ⟨_, _, h⟩ | ⟨_, _, h⟩ | ⟨hi, hk, h⟩ | ⟨hi, hk, h⟩ <;> rw [h]
    case inr.inr.inl => simp [hi]
    case inr.inr.inr.inr.inr.inl => simp [hi, hk]
    case inr.inr.inr.inr.inr.inr => simp [hi, hk]
    all_goals simp

/-- Settles O31: of all the ways of a step only reset and the completion of a block command write DOUT. -/
theorem doutWrittenOnlyByCompletion : Obligations.DoutWrittenOnlyByCompletion := by
  intro s t h hne
  cases stepped_of_step h with
  | reset es hnext => exact .inl hnext
  | blockCompleted es w hnext => exact .inr (hnext.imp And.left And.left)
  | accepted es rs v t hnext hacc =>
    obtain ⟨_, _, hdout, _⟩ := hacc.frame
    exact absurd hdout hne
  | _ => exact absurd rfl hne

/-- Settles O32: of all the ways of a step only reset and the completion of KEY_EXPAND write S. -/
theorem roundKeysWrittenOnlyByKeyExpand : Obligations.RoundKeysWrittenOnlyByKeyExpand := by
  intro s t h hne
  cases stepped_of_step h with
  | reset es hnext => exact .inl hnext
  | keyCompleted es hnext => exact .inr hnext
  | accepted es rs v t hnext hacc =>
    obtain ⟨_, _, _, hkeys⟩ := hacc.frame
    exact absurd hkeys hne
  | _ => exact absurd rfl hne

/-- Settles O37: KEY and DIN are written by reset and by a host's store to one of their registers. -/
theorem operandRegistersWrittenOnlyByHost : Obligations.OperandRegistersWrittenOnlyByHost := by
  intro s t h
  cases stepped_of_step h with
  | reset es hnext => exact ⟨fun _ => .inl hnext, fun _ => .inl hnext⟩
  | keyStored es rs n v hnext => exact ⟨fun _ => .inr ⟨n, v, hnext, rfl⟩, fun hne => absurd rfl hne⟩
  | dinStored es rs n v hnext => exact ⟨fun hne => absurd rfl hne, fun _ => .inr ⟨n, v, hnext, rfl⟩⟩
  | accepted es rs v t hnext hacc =>
    obtain ⟨hkey, hdin, _, _⟩ := hacc.frame
    exact ⟨fun hne => absurd hkey hne, fun hne => absurd hdin hne⟩
  | _ => exact ⟨fun hne => absurd rfl hne, fun hne => absurd rfl hne⟩

/-- Settles O36: acceptance stores its word, reset stores zero, and no other way of a step writes CTRL. -/
theorem ctrlHoldsLastAccepted : Obligations.CtrlHoldsLastAccepted := by
  intro s t h
  refine ⟨fun v hv => ?_, fun hr => ?_, fun hne => ?_⟩
  · obtain ⟨_, _, hacc⟩ := accepted_of_step hv h
    exact hacc.ctrl_eq
  · obtain ⟨es, hs⟩ := step_of_nextIsReset hr
    cases hs.symm.trans h
    exact resetCore_ctrl _
  · cases stepped_of_step h with
    | reset es hnext => exact .inl hnext
    | accepted es rs v t hnext hacc => exact .inr ⟨v, hnext⟩
    | _ => exact absurd rfl hne

/-- Acceptance never sets KEY_VALID, and clears it for a KEY_EXPAND word only (spec/10_state.md R28). -/
theorem Accepted.keyValid_eq {v : Word} {s t : State} (h : Accepted v s t) :
    t.status.keyValid = s.status.keyValid ∨ (t.status.keyValid = false ∧ v &&& 0xFFFF00FF = 1) := by
  cases h with
  | keyRefused hv => exact .inr ⟨rfl, hv⟩
  | keyStarted hv => exact .inr ⟨rfl, by rw [hv]; decide⟩
  | _ => exact .inl rfl

/-- Settles O33: KEY_VALID is set by one way of a step, the completion of KEY_EXPAND, and cleared by two. -/
theorem keyValidLifeCycle : Obligations.KeyValidLifeCycle := by
  intro s t h
  cases stepped_of_step h with
  | keyCompleted es hnext => exact ⟨fun _ _ => hnext, fun _ ht => (nomatch ht)⟩
  | reset es hnext => exact ⟨fun _ ht => (nomatch ht), fun _ _ => .inl hnext⟩
  | accepted es rs v t hnext hacc =>
    rcases hacc.keyValid_eq with hkept | ⟨hlost, hv⟩
    · exact ⟨fun hs ht => (nomatch ht.symm.trans (hkept.trans hs)),
        fun hs ht => (nomatch ht.symm.trans (hkept.trans hs))⟩
    · exact ⟨fun _ ht => (nomatch hlost.symm.trans ht), fun _ _ => .inr ⟨v, hnext, hv⟩⟩
  | _ => exact ⟨fun hs ht => (nomatch hs.symm.trans ht), fun hs ht => (nomatch hs.symm.trans ht)⟩

/-- Settles O34: of all the ways of a step only reset, a refusal and an acceptance write ERR, and a refusal sets it. -/
theorem errLifeCycle : Obligations.ErrLifeCycle := by
  intro s t h
  cases stepped_of_step h with
  | reset es hnext => exact ⟨fun _ _ => .inl hnext, fun _ ht => (nomatch ht)⟩
  | refused es rs v hnext hb => exact ⟨fun _ ht => (nomatch ht), fun _ _ => .inl ⟨⟨v, hnext⟩, hb⟩⟩
  | accepted es rs v t hnext hacc => exact ⟨fun _ _ => .inr ⟨v, hnext⟩, fun _ _ => .inr ⟨v, hnext⟩⟩
  | _ => exact ⟨fun hs ht => (nomatch hs.symm.trans ht), fun hs ht => (nomatch hs.symm.trans ht)⟩

/-- Acceptance never clears BUSY, and sets it for the three words that start a command (spec/10_state.md R25). -/
theorem Accepted.busy_eq {v : Word} {s t : State} (h : Accepted v s t) :
    t.status.busy = s.status.busy ∨ (t.status.busy = true ∧
      (v = 0x00001001 ∨ ((v = 0x00001002 ∨ v = 0x00001003) ∧ s.status.keyValid = true))) := by
  cases h with
  | keyStarted hv => exact .inr ⟨rfl, .inl hv⟩
  | blockStarted p hv hkey => exact .inr ⟨rfl, .inr ⟨hv.imp And.right And.right, hkey⟩⟩
  | _ => exact .inl rfl

/-- Settles O35: BUSY is set by the acceptances that start a command, and cleared by reset and by a completion. -/
theorem busyLifeCycle : Obligations.BusyLifeCycle := by
  intro s t _ h
  cases stepped_of_step h with
  | keyCompleted es hnext =>
    exact ⟨fun _ ht => (nomatch ht), fun _ _ => .inr (by rw [hnext.1]; exact hnext)⟩
  | blockCompleted es w hnext =>
    refine ⟨fun _ ht => (nomatch ht), fun _ _ => .inr ?_⟩
    rcases hnext with ⟨hnext, _⟩ | ⟨hnext, _⟩ <;> (rw [hnext.1]; exact hnext)
  | reset es hnext => exact ⟨fun _ ht => (nomatch ht), fun _ _ => .inl hnext⟩
  | accepted es rs v t hnext hacc =>
    refine ⟨fun hb ht => ?_, fun hb _ => (nomatch hb.symm.trans hnext.2)⟩
    rcases hacc.busy_eq with hkept | ⟨_, rfl | ⟨rfl | rfl, hkey⟩⟩
    · exact (nomatch ht.symm.trans (hkept.trans hb))
    · exact .inl hnext
    · exact .inr ⟨.inl hnext, hkey⟩
    · exact .inr ⟨.inr hnext, hkey⟩
  | _ => exact ⟨fun hs ht => (nomatch hs.symm.trans ht), fun hs ht => (nomatch hs.symm.trans ht)⟩

end Sys2Proof.Machine
end

