-- ==== Sys2Proof/Proofs/InvariantKept.lean ====
section
/-! PROOF. The invariant of Safety holds right after reset and every step keeps it. -/

namespace Sys2Proof.Machine

/-- The invariant speaks of six fields only, so a state that agrees on them meets it too. -/
theorem Invariant.of_agree {s t : State} (hi : Invariant s) (hstatus : t.status = s.status) (hphase : t.phase = s.phase)
    (hkeys : t.roundKeys = s.roundKeys) (hkl : t.kl = s.kl) (hparams : t.params = s.params) (hctrl : t.ctrl = s.ctrl) :
    Invariant t := by
  cases s
  cases t
  cases hstatus; cases hphase; cases hkeys; cases hkl; cases hparams; cases hctrl
  exact { hi with }

/-- In an idle core nothing is asked of the command in flight: only STATUS and the schedule matter. -/
theorem Invariant.of_idle {s : State} (hphase : s.phase = .idle) (hbusy : s.status.busy = false)
    (hle : s.status.errcode.toNat ≤ 5) (herr : s.status.err = true ↔ s.status.errcode ≠ 0)
    (hdone : s.status.err = true → s.status.done = true → s.status.errcode = ErrCode.busyViolation.bits)
    (hkeys : s.status.keyValid = true → s.roundKeys = keyExpand s.params.wordOrder s.kl) : Invariant s where
  busy_iff := by simp [hphase, hbusy]
  errcode_le := hle
  err_iff := herr
  busy_not_done := by simp [hbusy]
  err_busy_or_done := fun he h => hdone he (h.resolve_left (by simp [hbusy]))
  schedule := hkeys
  keyx_no_key := by simp [hphase]
  block_has_key := by simp [hphase]
  ctrl_keyx := by simp [hphase]
  ctrl_enc := by simp [hphase]
  ctrl_dec := by simp [hphase]

/-- The reset core meets the invariant, whatever was in flight (spec/10_state.md R38). -/
theorem invariant_resetCore (s : State) : Invariant (resetCore s) :=
  .of_idle rfl rfl (by simp [Status.reset]) (by simp [Status.reset]) (by simp [Status.reset]) (by simp [Status.reset])

/-- Settles O29: the state after reset is the reset of itself. -/
theorem invariantAfterReset : Obligations.InvariantAfterReset :=
  invariant_resetCore State.reset

/-- A core that is not busy is in the phase IDLE (spec/10_state.md R36). -/
theorem Invariant.phase_of_not_busy {s : State} (hi : Invariant s) (hb : s.status.busy = false) : s.phase = .idle := by
  by_contra hp
  exact absurd (hi.busy_iff.2 hp) (by simp [hb])

/-- A refused CTRL write keeps the invariant, for the error it leaves is the one that may stand beside BUSY or DONE
(spec/60_exceptions.md R184). -/
theorem Invariant.refused {s : State} (hi : Invariant s) :
    Invariant { s with status := { s.status with err := true, errcode := ErrCode.busyViolation.bits } } :=
  { hi with
    errcode_le := ErrCode.busyViolation.bits_le
    err_iff := by simp [ErrCode.bits]
    err_busy_or_done := fun _ _ => rfl }

/-- A completion, when it is next, finds the core busy (spec/10_state.md R36). -/
theorem Invariant.busy_of_completes {s : State} {p : Phase} (hi : Invariant s) (hnext : nextCompletes p s)
    (hp : p ≠ .idle) : s.status.busy = true :=
  hi.busy_iff.2 (hnext.1 ▸ hp)

/-- A completion keeps the invariant when it leaves a schedule for its KEY_VALID: an error beside the new DONE = 1 stood
while busy, so it is a BUSY_VIOLATION (spec/10_state.md R26). -/
theorem Invariant.completed {s t : State} (hi : Invariant s) (hb : s.status.busy = true) (hphase : t.phase = .idle)
    (hbusy : t.status.busy = false) (herr : t.status.err = s.status.err) (hcode : t.status.errcode = s.status.errcode)
    (hkeys : t.status.keyValid = true → t.roundKeys = keyExpand t.params.wordOrder t.kl) : Invariant t :=
  .of_idle hphase hbusy (hcode ▸ hi.errcode_le) (by rw [herr, hcode]; exact hi.err_iff)
    (fun he _ => by rw [hcode]; exact hi.err_busy_or_done (herr ▸ he) (.inl hb)) hkeys

/-- An acceptance keeps the invariant. Where it fails or acknowledges, the core stays idle; where it starts a command, every
clause is about values it has just written, but for the schedule of the key in place. -/
theorem Invariant.accepted {v : Word} {s t : State} (hi : Invariant s) (hb : s.status.busy = false)
    (hacc : Accepted v s t) : Invariant t := by
  have hidle := hi.phase_of_not_busy hb
  cases hacc with
  | acknowledged => exact .of_idle hidle hb ErrCode.none.bits_le (by simp) (by simp) hi.schedule
  | failed code hcode =>
    exact .of_idle hidle hb code.bits_le (by simpa using ErrCode.bits_ne_zero hcode) (by simp) hi.schedule
  | keyRefused hv => exact .of_idle hidle hb ErrCode.configError.bits_le (by simp [ErrCode.bits]) (by simp) (by simp)
  | keyStarted hv =>
    subst hv
    constructor <;> simp
  | blockStarted p hv hkey =>
    rcases hv with ⟨rfl, rfl⟩ | ⟨rfl, rfl⟩ <;> constructor <;> simp [hkey, hi.schedule]

/-- Settles O30, by the ways of a step. -/
theorem stepKeepsInvariant : Obligations.StepKeepsInvariant := by
  intro s t hi h
  cases stepped_of_step h with
  | nothingCompleted | answered | keyStored | dinStored => exact hi.of_agree rfl rfl rfl rfl rfl rfl
  | keyCompleted es hnext =>
    exact hi.completed (hi.busy_of_completes hnext (by decide)) rfl rfl rfl rfl (fun _ => by dsimp only)
  | blockCompleted es w hnext =>
    have hb : s.status.busy = true :=
      hnext.elim (fun hn => hi.busy_of_completes hn.1 (by decide)) (fun hn => hi.busy_of_completes hn.1 (by decide))
    exact hi.completed hb rfl rfl rfl rfl hi.schedule
  | reset es hnext => exact invariant_resetCore _
  | refused es rs v hnext hb => exact hi.refused.of_agree rfl rfl rfl rfl rfl rfl
  | accepted es rs v t hnext hacc =>
    exact (hi.of_agree (t := { s with events := es, replies := rs }) rfl rfl rfl rfl rfl rfl).accepted hnext.2 hacc

end Sys2Proof.Machine
end

