-- ==== Sys2Proof/Proofs/HiddenState.lean ====
section
/-! PROOF. Hidden state that nothing makes live cannot be told by a host: two states that differ only in it step alike, so
they run alike (spec/10_state.md R32 to R35, R37). -/

namespace Sys2Proof.Machine

/-! The operations, one by one, on two states that are alike. -/

namespace HiddenAlike

variable {s t : State}

theorem withEvents (h : HiddenAlike s t) (es : List Event) : HiddenAlike (s.withEvents es) (t.withEvents es) :=
  { h with events := rfl }

theorem withDraws (h : HiddenAlike s t) (n : Nat) : HiddenAlike (s.withDraws n) (t.withDraws n) :=
  { h with draws := rfl }

theorem withKey (h : HiddenAlike s t) (q : Quad) : HiddenAlike (s.withKey q) (t.withKey q) :=
  { h with key := rfl }

theorem withDin (h : HiddenAlike s t) (q : Quad) : HiddenAlike (s.withDin q) (t.withDin q) :=
  { h with din := rfl }

theorem withCtrl (h : HiddenAlike s t) (v : Word) : HiddenAlike (s.withCtrl v) (t.withCtrl v) :=
  { h with ctrl := rfl }

theorem withKl (h : HiddenAlike s t) (b : Block) : HiddenAlike (s.withKl b) (t.withKl b) :=
  { h with kl := fun _ => rfl }

theorem withXl (h : HiddenAlike s t) (b : Block) : HiddenAlike (s.withXl b) (t.withXl b) :=
  { h with xl := fun _ => rfl }

theorem withRoundKeys (h : HiddenAlike s t) (k : RoundKeys) : HiddenAlike (s.withRoundKeys k) (t.withRoundKeys k) :=
  { h with roundKeys := fun _ => rfl }

theorem withDout (h : HiddenAlike s t) (q : Quad) : HiddenAlike (s.withDout q) (t.withDout q) :=
  { h with dout := rfl }

theorem withWork (h : HiddenAlike s t) (w : BlockWork) : HiddenAlike (s.withWork w) (t.withWork w) :=
  { h with }

theorem withKs (h : HiddenAlike s t) (k : KeyWork) : HiddenAlike (s.withKs k) (t.withKs k) :=
  { h with }

/-- A phase makes a latch live, so that latch must be alike (spec/10_state.md R35). -/
theorem withPhase (h : HiddenAlike s t) {p : Phase} (hkl : p = .keyx → s.kl = t.kl)
    (hxl : p = .enc ∨ p = .dec → s.xl = t.xl) : HiddenAlike (s.withPhase p) (t.withPhase p) :=
  { h with phase := rfl, kl := hkl, xl := hxl }

/-- KEY_VALID makes S live, so S must be alike where a change of STATUS leaves it set (spec/10_state.md R39). -/
theorem withStatus (h : HiddenAlike s t) (change : Status → Status)
    (hkeys : (change s.status).keyValid = true → s.roundKeys = t.roundKeys) :
    HiddenAlike (s.withStatus (change s.status)) (t.withStatus (change t.status)) :=
  { h with status := congrArg change h.status, roundKeys := hkeys }

theorem reply (h : HiddenAlike s t) (m : Nat) (a : Response) : HiddenAlike (reply m a s) (reply m a t) :=
  { h with replies := congrArg (_ :: ·) h.replies }

/-- A read answers the same word: no register shows hidden state (spec/20_memory.md R56). -/
theorem readReg (h : HiddenAlike s t) (r : Reg) :
    (readReg r s).1 = (readReg r t).1 ∧ HiddenAlike (readReg r s).2 (readReg r t).2 := by
  cases r with
  | ctrl => exact ⟨h.ctrl, h⟩
  | status => exact ⟨congrArg Status.word h.status, h⟩
  | param => exact ⟨rfl, h⟩
  | key n => exact ⟨rfl, h⟩
  | din n => exact ⟨congrArg (·[n]) h.din, h⟩
  | dout n =>
    simp only [Machine.readReg, ← h.status, ← h.draws, ← h.dout]
    split
    · exact ⟨rfl, h.withDraws _⟩
    · exact ⟨rfl, h⟩

theorem raiseCoreError (h : HiddenAlike s t) (code : ErrCode) :
    HiddenAlike (raiseCoreError code s) (raiseCoreError code t) :=
  h.withStatus (·.failed code) h.roundKeys

theorem goBusy (h : HiddenAlike s t) {p : Phase} (hkl : p = .keyx → s.kl = t.kl)
    (hxl : p = .enc ∨ p = .dec → s.xl = t.xl) : HiddenAlike (goBusy p s) (goBusy p t) :=
  (h.withPhase hkl hxl).withStatus Status.started h.roundKeys

theorem finish (h : HiddenAlike s t) : HiddenAlike (finish s) (finish t) :=
  (h.withPhase (p := .idle) nofun nofun).withStatus Status.completed h.roundKeys

/-- KEY_EXPAND latches the KEY registers, which are alike, and makes S dead (spec/41_key_schedule.md R111, R112). -/
theorem startKeyExpand (h : HiddenAlike s t) (n : Nat) : HiddenAlike (startKeyExpand n s) (startKeyExpand n t) := by
  have hlost := h.withStatus Status.keyLost nofun
  simp only [Machine.startKeyExpand, State.withStatus_key, ← h.key]
  split
  · exact hlost.raiseCoreError .configError
  · exact (hlost.withKl _).goBusy (fun _ => rfl) nofun

/-- A block command latches the DIN registers, which are alike; a wrong length or a missing key fails it in both states
(spec/42_block_cipher.md R140, R142, R143). -/
theorem startBlock (h : HiddenAlike s t) {p : Phase} (hp : p ≠ .keyx) (n : Nat) :
    HiddenAlike (startBlock p n s) (startBlock p n t) := by
  simp only [Machine.startBlock, ← h.status, ← h.din]
  split_ifs
  · exact h.raiseCoreError .invalidInput
  · exact h.raiseCoreError .noKey
  · exact (h.withXl _).goBusy (fun hk => absurd hk hp) (fun _ => rfl)

theorem startOf (h : HiddenAlike s t) (i : Instr) : HiddenAlike (startOf i s) (startOf i t) := by
  cases i with
  | nop len => exact h.withStatus Status.acknowledged h.roundKeys
  | keyExpand len => exact h.startKeyExpand _
  | encrypt len => exact h.startBlock (by decide) _
  | decrypt len => exact h.startBlock (by decide) _

/-- A word issued is refused in both states or accepted in both, for BUSY is alike. -/
theorem issue (h : HiddenAlike s t) (v : Word) {start : State → State}
    (hstart : ∀ {s t : State}, HiddenAlike s t → HiddenAlike (start s) (start t)) :
    HiddenAlike (issue v start s) (issue v start t) := by
  simp only [Machine.issue, ← h.status]
  split
  · exact h.withStatus (·.failed .busyViolation) h.roundKeys
  · exact hstart ((h.withCtrl v).withStatus Status.cleared h.roundKeys)

/-- The schedule is that of KL, which is alike while a KEY_EXPAND is in flight (spec/41_key_schedule.md R116). -/
theorem completeKeyExpand (h : HiddenAlike s t) (hp : s.phase = .keyx) :
    HiddenAlike (completeKeyExpand s) (completeKeyExpand t) := by
  simp only [Machine.completeKeyExpand, ← h.params, ← h.kl hp]
  generalize keyExpand s.params.wordOrder s.kl = keys
  exact (((h.withRoundKeys keys).withKs _).withStatus Status.keyReady fun _ => rfl).finish

/-- The same result is published to DOUT, whatever the working words held before. -/
theorem publishBlock (h : HiddenAlike s t) (w : BlockWork) : HiddenAlike (publishBlock w s) (publishBlock w t) := by
  simp only [Machine.publishBlock, ← h.params]
  exact ((h.withWork w).withDout _).finish

/-- A completion reads only what its phase makes live; a block command in flight has a key, so S is alike
(spec/42_block_cipher.md R143). -/
theorem seqStep (h : HiddenAlike s t) (hi : Invariant s) : HiddenAlike (seqStep s) (seqStep t) := by
  have hblock : s.phase = .enc ∨ s.phase = .dec → s.roundKeys = t.roundKeys :=
    fun hp => h.roundKeys (hi.block_has_key hp)
  unfold Machine.seqStep
  rw [← h.phase]
  cases hp : s.phase with
  | idle => exact h
  | keyx => exact h.completeKeyExpand hp
  | enc =>
    simp only [completeEncrypt, ← h.params, ← hblock (.inl hp), ← h.xl (.inl hp)]
    exact h.publishBlock _
  | dec =>
    simp only [completeDecrypt, ← h.params, ← hblock (.inr hp), ← h.xl (.inr hp)]
    exact h.publishBlock _

theorem resetCore (h : HiddenAlike s t) : HiddenAlike (resetCore s) (resetCore t) where
  ctrl := rfl
  status := rfl
  key := rfl
  din := rfl
  dout := rfl
  phase := rfl
  params := h.params
  events := h.events
  replies := h.replies
  draws := h.draws
  roundKeys := fun _ => rfl
  kl := fun _ => rfl
  xl := fun _ => rfl

end HiddenAlike

/-! Steps and runs. -/

/-- Two outcomes a host cannot tell apart: next states that are alike, or the same fault. -/
inductive OutcomesAlike : Host.Outcome State Fault Refusal → Host.Outcome State Fault Refusal → Prop where
  | next {s t : State} (h : HiddenAlike s t) : OutcomesAlike (.next s) (.next t)
  | fault (r : Fault) : OutcomesAlike (.fault r) (.fault r)

/-- Alike outcomes go on to alike states, or stop for the same reason. -/
theorem OutcomesAlike.go_on_and_stop_together {o o' : Host.Outcome State Fault Refusal} (h : OutcomesAlike o o') :
    (∀ s, o = .next s → ∃ t, o' = .next t ∧ HiddenAlike s t) ∧ (∀ r, o = .fault r → o' = .fault r) := by
  cases h with
  | next h => exact ⟨fun _ hs => ⟨_, rfl, Host.Outcome.next.inj hs ▸ h⟩, fun _ hr => (by cases hr)⟩
  | fault r => exact ⟨fun _ hs => (by cases hs), fun _ hr => hr⟩

theorem writeCtrl_alike {s t : State} (h : HiddenAlike s t) (v : Word) : OutcomesAlike (writeCtrl v s) (writeCtrl v t) := by
  unfold writeCtrl
  cases decode v with
  | command i =>
    simp only [exec_eq_issue]
    exact .next (h.issue _ (·.startOf i))
  | illegal why => exact .next (h.issue v (·.raiseCoreError .illegalCmd))

theorem writeReg_alike {s t : State} (h : HiddenAlike s t) (r : Reg) (v : Word) :
    OutcomesAlike (writeReg r v s) (writeReg r v t) := by
  cases r with
  | ctrl => exact writeCtrl_alike h v
  | status => exact .next h
  | param => exact .next h
  | key n => simpa only [writeReg, ← h.key] using .next (h.withKey _)
  | din n => simpa only [writeReg, ← h.din] using .next (h.withDin _)
  | dout n => exact .next h

theorem hostAccess_alike {s t : State} (h : HiddenAlike s t) (m : Nat) (a : Access) :
    OutcomesAlike (hostAccess m a s) (hostAccess m a t) := by
  cases a with
  | read addr shape =>
    simp only [hostAccess, ← h.params]
    split
    · cases target shape (addr - windowBase s.params) with
      | none => exact .next (h.reply m _)
      | some r =>
        obtain ⟨hword, hstate⟩ := h.readReg r
        simpa only [← hword] using .next (hstate.reply m _)
    · exact .fault _
  | write addr shape v =>
    simp only [hostAccess, ← h.params]
    split
    · cases target shape (addr - windowBase s.params) with
      | none => exact .next (h.reply m _)
      | some r => exact writeReg_alike (h.reply m _) r v
    · exact .fault _

/-- Alike states step alike. -/
theorem step_alike {s t : State} (hi : Invariant s) (h : HiddenAlike s t) : OutcomesAlike (step s) (step t) := by
  cases hs : s.events with
  | nil =>
    rw [step_nil hs, step_nil (h.events ▸ hs)]
    exact .next (h.seqStep hi)
  | cons e es =>
    rw [step_cons hs, step_cons (h.events ▸ hs)]
    have h' := h.withEvents es
    cases e with
    | host m a => exact hostAccess_alike h' m a
    | seqComplete => exact .next (h'.seqStep (hi.of_agree rfl rfl rfl rfl rfl rfl))
    | reset => exact .next h'.resetCore

/-- Alike states run alike, for the invariant holds at every step of the first run. -/
theorem run_alike (n : Nat) {s t : State} (hi : Invariant s) (h : HiddenAlike s t) :
    OutcomesAlike (Host.Core.run Sys2Proof.core n s) (Host.Core.run Sys2Proof.core n t) := by
  induction n generalizing s t with
  | zero => exact .next h
  | succ n ih =>
    have hstep := step_alike hi h
    generalize hs : step s = o, ht : step t = o' at hstep
    cases hstep with
    | next h' =>
      rw [run_of_next hs, run_of_next ht]
      exact ih (stepKeepsInvariant _ _ hi hs) h'
    | fault r =>
      rw [run_of_fault hs, run_of_fault ht]
      exact .fault r

/-- Settles O43: runs of alike states are alike, so they go on and stop together. -/
theorem deadHiddenStateIsNotObservable : Obligations.DeadHiddenStateIsNotObservable :=
  fun n _ _ hi h => (run_alike n hi h).go_on_and_stop_together

end Sys2Proof.Machine
end

