-- ==== Sys2Proof/Proofs/RegisterFacts.lean ====
section
/-! PROOF. The register map, the bits of STATUS and PARAM, and the reset (spec/10_state.md R22, R24, R27, R38). -/

namespace Sys2Proof.Machine

/-- The register map is read off the registers' offsets: each register is found at its own offset and nowhere else. -/
theorem regAt_eq_some_iff {off : Nat} {r : Reg} : regAt off = some r ↔ off = r.offset :=
  ⟨offset_of_regAt, fun h => h ▸ regAt_offset r⟩

/-- Settles O26, register by register. -/
theorem registerMap : Obligations.RegisterMap := by
  intro off r
  rw [regAt_eq_some_iff]
  cases r with
  | ctrl => simp [Reg.offset]
  | status => simp [Reg.offset]
  | param => simp [Reg.offset]
  | key n => simp [Reg.offset]
  | din n => simp [Reg.offset]
  | dout n => simp [Reg.offset]

/-- Settles O27: PARAM is one constant. -/
theorem paramFields : Obligations.ParamFields := by
  unfold Obligations.ParamFields
  decide

/-- Every bit of the STATUS word; past ERRCODE's four bits there are none (spec/10_state.md R24). -/
theorem Status.word_getLsbD (st : Status) (i : Nat) :
    st.word.getLsbD i =
      match i with
      | 0 => st.busy
      | 1 => st.done
      | 2 => st.err
      | 3 => st.keyValid
      | k + 4 => st.errcode.getLsbD k := by
  show ((0 : BitVec 24) ++ st.errcode ++ BitVec.ofBool st.keyValid ++ BitVec.ofBool st.err ++ BitVec.ofBool st.done
    ++ BitVec.ofBool st.busy : BitVec (24 + 4 + 1 + 1 + 1 + 1)).getLsbD i = _
  simp only [BitVec.getLsbD_append]
  match i with
  | 0 => simp
  | 1 => simp
  | 2 => simp
  | 3 => simp
  | k + 4 => simpa using BitVec.lt_of_getLsbD

/-- Settles O28, field by field. -/
theorem statusBits : Obligations.StatusBits := by
  intro st
  refine ⟨st.word_getLsbD 0, st.word_getLsbD 1, st.word_getLsbD 2, st.word_getLsbD 3, ?_, ?_⟩
  · refine BitVec.eq_of_getLsbD_eq fun i hi => ?_
    rw [BitVec.getLsbD_extractLsb', Nat.add_comm, Status.word_getLsbD]
    simp [hi]
  · refine BitVec.eq_of_getLsbD_eq fun i hi => ?_
    rw [BitVec.getLsbD_extractLsb', Nat.add_comm, Status.word_getLsbD]
    simp [BitVec.getLsbD_of_ge]

/-- STATUS reads as zero after reset (spec/10_state.md R38). -/
theorem Status.word_reset : Status.reset.word = 0 := by decide

/-- Settles O21: the values of the literal. -/
theorem stateAfterReset : Obligations.StateAfterReset :=
  ⟨rfl, Status.word_reset, rfl, rfl, rfl, rfl, rfl, rfl⟩

/-- Settles O20: the reset event runs `resetCore`, whose phase IDLE leaves SEQ nothing to complete. -/
theorem resetClearsTheCore : Obligations.ResetClearsTheCore := by
  intro s rest he
  refine ⟨resetCore (s.withEvents rest), by rw [step_cons he]; rfl, ?_⟩
  exact ⟨rfl, Status.word_reset, rfl, rfl, rfl, rfl, rfl, rfl, rfl, rfl⟩

end Sys2Proof.Machine
end

