-- ==== Sys2Proof/Proofs/BusAccess.lean ====
section
/-! PROOF. What one access of a host does when it is the next event: a legal read or write, an access that reaches no
register, and an access outside the window (spec/20_memory.md R51, R55 to R58). -/

namespace Sys2Proof.Machine

/-! An access that reaches no register. -/

/-- Nothing but one word at a multiple of 4 other than 0x0C reaches a register (spec/20_memory.md R55, R58). -/
theorem target_eq_none {shape : Transfer} {off : Nat} (h : shape ≠ .single 4 ∨ off % 4 ≠ 0 ∨ off = 0x0C) :
    target shape off = none := by
  refine Option.eq_none_iff_forall_ne_some.2 fun r hr => ?_
  obtain ⟨hshape, rfl⟩ := target_eq_some hr
  obtain ⟨haligned, -, hmapped⟩ := r.offset_spec
  rcases h with h | h | h
  · exact h hshape
  · exact h haligned
  · exact hmapped h

/-- The addresses of the window are its base plus the offsets below its size (spec/20_memory.md R51). -/
theorem inWindow_windowBase_add {p : Params} {off : Nat} (h : off < windowBytes) :
    inWindow p (windowBase p + off) = true := by
  simp [inWindow, h]

/-- The other addresses lie below the window, or at or above its end (spec/20_memory.md R51). -/
theorem inWindow_eq_false_iff {p : Params} {addr : Nat} :
    inWindow p addr = false ↔ addr < windowBase p ∨ windowBase p + windowBytes ≤ addr := by
  simp only [inWindow, Bool.and_eq_false_iff, decide_eq_false_iff_not, Nat.not_le, Nat.not_lt]

/-- An access in the window that reaches no register is answered with BusError (spec/20_memory.md R58). -/
theorem hostAccess_busError {m off : Nat} {shape : Transfer} {a : Access} {s : State} (hoff : off < windowBytes)
    (ht : target shape off = none)
    (ha : a = .read (windowBase s.params + off) shape ∨ ∃ v, a = .write (windowBase s.params + off) shape v) :
    hostAccess m a s = .next (reply m (.busError (windowBase s.params + off)) s) := by
  rcases ha with rfl | ⟨v, rfl⟩
  · simp [hostAccess, inWindow_windowBase_add hoff, ht]
  · simp [hostAccess, inWindow_windowBase_add hoff, ht]

/-- An access whose address is not in the window stops the step (spec/20_memory.md R51; log 6). -/
theorem hostAccess_outside (m : Nat) {a : Access} {s : State} (h : inWindow s.params a.addr = false) :
    hostAccess m a s = .fault (.outsideWindow a.addr) := by
  cases a with
  | read addr shape => exact if_neg (ne_true_of_eq_false h)
  | write addr shape v => exact if_neg (ne_true_of_eq_false h)

/-! The step whose event is a host's access. -/

section

variable {s : State} {m off : Nat} {rest : List Event} {r : Reg} {v : Word}

/-- A legal read, when it is next, answers what the register reads as (spec/20_memory.md R56). -/
theorem step_read (he : s.events = .host m (.read (windowBase s.params + off) (.single 4)) :: rest)
    (hr : off = r.offset) :
    step s = .next (reply m (.data (readReg r (s.withEvents rest)).1) (readReg r (s.withEvents rest)).2) := by
  subst hr
  exact (step_cons he).trans (hostAccess_read_reg m r (s.withEvents rest))

/-- A legal write, when it is next, is answered and writes its register (spec/20_memory.md R57). -/
theorem step_write (he : s.events = .host m (.write (windowBase s.params + off) (.single 4) v) :: rest)
    (hr : off = r.offset) :
    step s = writeReg r v (reply m .written (s.withEvents rest)) := by
  subst hr
  exact (step_cons he).trans (hostAccess_write_reg m r v (s.withEvents rest))

/-- An access in the window that reaches no register, when it is next, is answered with BusError and consumed; that is all
(spec/20_memory.md R58). -/
theorem step_busError {shape : Transfer} {a : Access} (he : s.events = .host m a :: rest) (hoff : off < windowBytes)
    (hillegal : shape ≠ .single 4 ∨ off % 4 ≠ 0 ∨ off = 0x0C)
    (ha : a = .read (windowBase s.params + off) shape ∨ ∃ v, a = .write (windowBase s.params + off) shape v) :
    step s = .next (reply m (.busError (windowBase s.params + off)) (s.withEvents rest)) :=
  (step_cons he).trans (hostAccess_busError (s := s.withEvents rest) hoff (target_eq_none hillegal) ha)

end

/-- A DOUT register reads as itself while BUSY = 0 (spec/10_state.md R31). -/
theorem readReg_dout_of_idle (n : Fin 4) {s : State} (hb : s.status.busy = false) :
    readReg (.dout n) s = (s.dout[n], s) := by
  simp [readReg, hb]

/-- A DOUT register reads as a fresh free value while BUSY = 1 (spec/10_state.md R31, R37; log 5). -/
theorem readReg_dout_of_busy (n : Fin 4) {s : State} (hb : s.status.busy = true) :
    readReg (.dout n) s = (Config.busyDout s.draws, s.withDraws (s.draws + 1)) := by
  simp [readReg, hb]

/-- A word that decodes to a command, written to CTRL, runs it (spec/30_encoding.md R74). -/
theorem writeCtrl_of_command {v : Word} {i : Instr} (hd : decode v = .command i) (s : State) :
    writeCtrl v s = exec i s := by
  simp only [writeCtrl, hd]

/-- Settles O24: such an access reaches no register. -/
theorem busErrorChangesNothing : Obligations.BusErrorChangesNothing :=
  fun _ _ _ _ _ _ hoff hillegal ha he => step_busError he hoff hillegal ha

/-- Settles O22, register by register: each offset is that of one register, and 0x0C is that of none. -/
theorem busReadReturns : Obligations.BusReadReturns := by
  intro s m off rest he
  refine ⟨step_read (r := .ctrl) he, step_read (r := .status) he, step_read (r := .param) he, ?unmapped,
    fun n => step_read (r := .key n) he, fun n => step_read (r := .din n) he, ?doutIdle, ?doutBusy⟩
  case unmapped =>
    rintro rfl
    exact step_busError he (by decide) (.inr (.inr rfl)) (.inl rfl)
  case doutIdle =>
    intro n hoff hb
    rw [step_read (r := .dout n) he hoff, readReg_dout_of_idle n (s := s.withEvents rest) hb]
    rfl
  case doutBusy =>
    intro n hoff hb
    refine ⟨Config.busyDout s.draws, ?_⟩
    rw [step_read (r := .dout n) he hoff, readReg_dout_of_busy n (s := s.withEvents rest) hb]
    rfl

/-- Settles O23, register by register: KEYn and DINn are stored, and STATUS, PARAM and DOUTn ignore the word. -/
theorem busWriteEffects : Obligations.BusWriteEffects := by
  intro s m off v rest he
  refine ⟨?readOnly, ?unmapped, fun n => step_write (r := .key n) he, fun n => step_write (r := .din n) he,
    fun n => step_write (r := .dout n) he⟩
  case readOnly =>
    rintro (hoff | hoff)
    · exact step_write (r := .status) he hoff
    · exact step_write (r := .param) he hoff
  case unmapped =>
    rintro rfl
    exact step_busError he (by decide) (.inr (.inr rfl)) (.inr ⟨v, rfl⟩)

/-- Settles O5: the write reaches CTRL, which runs the decoded command. -/
theorem stepRunsDecodedCommand : Obligations.StepRunsDecodedCommand :=
  fun _ _ _ _ _ he hd => (step_write (r := .ctrl) he rfl).trans (writeCtrl_of_command hd _)

/-- Settles O25: the address decides, whatever the shape. -/
theorem outsideWindowFaults : Obligations.OutsideWindowFaults := by
  intro s m a rest he hout
  have hw : inWindow s.params a.addr = false := inWindow_eq_false_iff.2 hout
  exact (step_cons he).trans (hostAccess_outside m (s := s.withEvents rest) hw)

end Sys2Proof.Machine
end

