-- ==== Sys2Proof/Proofs/ByteOrder.lean ====
section
/-! PROOF. Bytes in registers and bytes in words (spec/20_memory.md R53, R54). Both rest on one fact: packing four bytes in a
register and taking its four bytes are inverse. LE is that packing, and BE is it with the bytes in the other order. -/

namespace Sys2Proof.Machine

/-! Four bytes and one register. -/

section

variable (b0 b1 b2 b3 : Byte)

/-- Byte `n` of a register is the `n`-th byte packed in it: the bytes below it are dropped, the ones above it cut off
(spec/20_memory.md R53). -/
theorem registerByte_registerOfBytes (n : Fin 4) :
    registerByte (registerOfBytes b0 b1 b2 b3) n.val = #v[b0, b1, b2, b3][n] := by
  show (b3 ++ b2 ++ b1 ++ b0 : BitVec (8 + 8 + 8 + 8)).extractLsb' (8 * n.val) 8 = _
  have drop {v k : Nat} (hi : BitVec v) (lo : Byte) (h : 8 ≤ k) : (hi ++ lo).extractLsb' k 8 = hi.extractLsb' (k - 8) 8 :=
    BitVec.extractLsb'_append_eq_of_le h
  match n with
  | 0 => exact BitVec.extractLsb'_append_eq_right
  | 1 => exact (drop (b3 ++ b2 ++ b1) b0 (by decide)).trans BitVec.extractLsb'_append_eq_right
  | 2 =>
    exact ((drop (b3 ++ b2 ++ b1) b0 (by decide)).trans (drop (b3 ++ b2) b1 (by decide))).trans
      BitVec.extractLsb'_append_eq_right
  | 3 =>
    exact (((drop (b3 ++ b2 ++ b1) b0 (by decide)).trans (drop (b3 ++ b2) b1 (by decide))).trans
      (drop b3 b2 (by decide))).trans BitVec.extractLsb'_eq_self

@[simp] theorem registerByte_zero_registerOfBytes : registerByte (registerOfBytes b0 b1 b2 b3) 0 = b0 :=
  registerByte_registerOfBytes b0 b1 b2 b3 0

@[simp] theorem registerByte_one_registerOfBytes : registerByte (registerOfBytes b0 b1 b2 b3) 1 = b1 :=
  registerByte_registerOfBytes b0 b1 b2 b3 1

@[simp] theorem registerByte_two_registerOfBytes : registerByte (registerOfBytes b0 b1 b2 b3) 2 = b2 :=
  registerByte_registerOfBytes b0 b1 b2 b3 2

@[simp] theorem registerByte_three_registerOfBytes : registerByte (registerOfBytes b0 b1 b2 b3) 3 = b3 :=
  registerByte_registerOfBytes b0 b1 b2 b3 3

end

/-- A register is its four bytes packed (spec/20_memory.md R53). -/
@[simp] theorem registerOfBytes_registerByte (w : Word) :
    registerOfBytes (registerByte w 0) (registerByte w 1) (registerByte w 2) (registerByte w 3) = w := by
  show (w.extractLsb' 24 8 ++ w.extractLsb' 16 8 ++ w.extractLsb' 8 8 ++ w.extractLsb' 0 8 : BitVec (8 + 8 + 8 + 8)) = w
  have join {m n l : Nat} (h : m = n + l) (k : Nat) :
      w.extractLsb' m k ++ w.extractLsb' n l = w.extractLsb' n (k + l) :=
    BitVec.extractLsb'_append_extractLsb'_eq_extractLsb' h
  rw [join (m := 24) (n := 16) rfl, join (m := 16) (n := 8) rfl, join (m := 8) (n := 0) rfl, BitVec.extractLsb'_eq_self]

/-! Sixteen bytes and four registers. -/

/-- A group of registers is its four registers. -/
theorem quad_eta (q : Quad) : #v[q[0], q[1], q[2], q[3]] = q := by
  refine Vector.ext fun i hi => ?_
  interval_cases i <;> rfl

/-- A block is its sixteen bytes. -/
theorem block_eta (b : Block) :
    #v[b[0], b[1], b[2], b[3], b[4], b[5], b[6], b[7], b[8], b[9], b[10], b[11], b[12], b[13], b[14], b[15]] = b := by
  refine Vector.ext fun i hi => ?_
  interval_cases i <;> rfl

/-- Packing the bytes of four registers gives the registers back (spec/20_memory.md R53). -/
@[simp] theorem packBytes_latchBytes (q : Quad) : packBytes (latchBytes q) = q := by
  calc packBytes (latchBytes q)
    _ = #v[q[0], q[1], q[2], q[3]] := by simp [packBytes, latchBytes]
    _ = q := quad_eta q

/-- The bytes of registers packed from a block are the block (spec/20_memory.md R53). -/
@[simp] theorem latchBytes_packBytes (b : Block) : latchBytes (packBytes b) = b := by
  conv_rhs => rw [← block_eta b]
  simp [packBytes, latchBytes]

/-- Byte `k` of four registers is byte `k mod 4` of register `k div 4` (spec/20_memory.md R53). -/
theorem latchBytes_getElem (q : Quad) (k : Fin 16) :
    (latchBytes q)[k] = registerByte (q[k.val / 4]'(by omega)) (k.val % 4) := by
  fin_cases k <;> rfl

/-- Settles O46: byte `k` is read off the literal, and the packings are inverse register by register. -/
theorem bytePacking : Obligations.BytePacking :=
  ⟨packBytes_latchBytes, latchBytes_packBytes, latchBytes_getElem⟩

/-! Four bytes and one word, under either order. -/

/-- A word's bytes, stored, give the word back (spec/20_memory.md R54). -/
theorem wordOfBytes_storeWord (o : WordOrder) (w : Word) :
    wordOfBytes o (storeWord o w)[0] (storeWord o w)[1] (storeWord o w)[2] (storeWord o w)[3] = w := by
  cases o with
  | le => exact registerOfBytes_registerByte w
  | be => exact registerOfBytes_registerByte w

/-- The word of four bytes is stored as these bytes (spec/20_memory.md R54). -/
theorem storeWord_wordOfBytes (o : WordOrder) (b0 b1 b2 b3 : Byte) :
    storeWord o (wordOfBytes o b0 b1 b2 b3) = #v[b0, b1, b2, b3] := by
  cases o with
  | le =>
    change #v[registerByte (registerOfBytes b0 b1 b2 b3) 0, registerByte (registerOfBytes b0 b1 b2 b3) 1,
      registerByte (registerOfBytes b0 b1 b2 b3) 2, registerByte (registerOfBytes b0 b1 b2 b3) 3] = _
    simp
  | be =>
    change #v[registerByte (registerOfBytes b3 b2 b1 b0) 3, registerByte (registerOfBytes b3 b2 b1 b0) 2,
      registerByte (registerOfBytes b3 b2 b1 b0) 1, registerByte (registerOfBytes b3 b2 b1 b0) 0] = _
    simp

/-! Sixteen bytes and four words. -/

/-- Storing the words loaded from a block gives the block (spec/20_memory.md R54). -/
theorem storeWords_loadWord (o : WordOrder) (x : Block) :
    storeWords o (loadWord o x 0) (loadWord o x 1) (loadWord o x 2) (loadWord o x 3) = x := by
  conv_rhs => rw [← block_eta x]
  simp [storeWords, loadWord, storeWord_wordOfBytes]

section

variable (o : WordOrder) (a b c d : Word)

/-! Loading from stored words gives the words (spec/20_memory.md R54). -/

@[simp] theorem loadWord_storeWords_zero : loadWord o (storeWords o a b c d) 0 = a := wordOfBytes_storeWord o a
@[simp] theorem loadWord_storeWords_one : loadWord o (storeWords o a b c d) 1 = b := wordOfBytes_storeWord o b
@[simp] theorem loadWord_storeWords_two : loadWord o (storeWords o a b c d) 2 = c := wordOfBytes_storeWord o c
@[simp] theorem loadWord_storeWords_three : loadWord o (storeWords o a b c d) 3 = d := wordOfBytes_storeWord o d

end

/-- Under LE the words of four registers' bytes are the registers: both byte orders are then the same
(spec/20_memory.md R54). -/
theorem loadWord_le_latchBytes (q : Quad) (k : Fin 4) : loadWord .le (latchBytes q) k = q[k] := by
  match k with
  | 0 => exact registerOfBytes_registerByte q[0]
  | 1 => exact registerOfBytes_registerByte q[1]
  | 2 => exact registerOfBytes_registerByte q[2]
  | 3 => exact registerOfBytes_registerByte q[3]

/-- Under LE storing four words is taking the bytes of four registers that hold them (spec/20_memory.md R54). -/
theorem storeWords_le (a b c d : Word) : storeWords .le a b c d = latchBytes #v[a, b, c, d] := rfl

/-- Settles O47: the two laws of one word hold for each of the four, and LE is the packing of R53. -/
theorem wordOrderRules : Obligations.WordOrderRules := by
  refine ⟨storeWords_loadWord, fun o a b c d => ?_, loadWord_le_latchBytes, fun a b c d => ?_⟩
  · exact ⟨loadWord_storeWords_zero o a b c d, loadWord_storeWords_one o a b c d, loadWord_storeWords_two o a b c d,
      loadWord_storeWords_three o a b c d⟩
  · rw [storeWords_le, packBytes_latchBytes]

end Sys2Proof.Machine
end

