-- ==== Sys2Proof/Proofs/OpcodeMap.lean ====
section
/-! PROOF. The opcode map (spec/30_encoding.md R70, R73 to R75): decode and encode are inverse, the mask 0xFFFF00FF tells
which command a word is, and a word that is none raises ILLEGAL_CMD. -/

namespace Sys2Proof

/-- Every command's word decodes to it, whatever its LEN (spec/30_encoding.md R73, R74). -/
theorem decode_encode (i : Instr) : decode (encode i) = .command i := by
  cases i with
  | nop len | keyExpand len | encrypt len | decrypt len => simp [decode, encode, Instr.cmd, Instr.len]

/-- Settles O1 by the fields of the encoded word; every Instr is well formed, so the hypothesis excludes none. -/
theorem decodeInvertsEncode : Obligations.DecodeInvertsEncode :=
  fun i _ => decode_encode i

/-- Settles O2: a decoded word has zero reserved fields, so its CMD and LEN are all of it. -/
theorem encodeInvertsDecode : Obligations.EncodeInvertsDecode :=
  fun _ _ => encode_of_decode

/-! The mask 0xFFFF00FF of spec/opcode_table.json leaves every field but LEN as it is. -/

theorem cmdField_and_mask (v : Word) : cmdField (v &&& 0xFFFF00FF) = cmdField v :=
  BitVec.extractLsb'_and.trans BitVec.and_allOnes

theorem rsv0Field_and_mask (v : Word) : rsv0Field (v &&& 0xFFFF00FF) = rsv0Field v :=
  BitVec.extractLsb'_and.trans BitVec.and_allOnes

theorem rsv1Field_and_mask (v : Word) : rsv1Field (v &&& 0xFFFF00FF) = rsv1Field v :=
  BitVec.extractLsb'_and.trans BitVec.and_allOnes

/-- A word is its LEN and what the mask leaves of it (spec/30_encoding.md R70). -/
theorem word_eq_of_and_mask_eq {v w : Word} (hmask : v &&& 0xFFFF00FF = w &&& 0xFFFF00FF)
    (hlen : lenField v = lenField w) : v = w := by
  have hcmd : cmdField v = cmdField w := by rw [← cmdField_and_mask v, hmask, cmdField_and_mask]
  have hrsv0 : rsv0Field v = rsv0Field w := by rw [← rsv0Field_and_mask v, hmask, rsv0Field_and_mask]
  have hrsv1 : rsv1Field v = rsv1Field w := by rw [← rsv1Field_and_mask v, hmask, rsv1Field_and_mask]
  rw [← word_of_fields v, ← word_of_fields w, hcmd, hrsv0, hrsv1, hlen]

/-- A word selects a command exactly when the mask leaves its CMD, and the command then has the word's LEN
(spec/30_encoding.md R73, R74). -/
theorem decode_eq_command_iff {v : Word} {i : Instr} :
    decode v = .command i ↔ v &&& 0xFFFF00FF = i.cmd.setWidth 32 ∧ lenField v = i.len := by
  constructor
  · intro h
    rw [← encode_of_decode h]
    exact ⟨commandWord_and_mask i.len i.cmd, lenField_commandWord i.len i.cmd⟩
  · rintro ⟨hmask, hlen⟩
    have hv : v = encode i := word_eq_of_and_mask_eq (hmask.trans (commandWord_and_mask i.len i.cmd).symm)
      (hlen.trans (lenField_commandWord i.len i.cmd).symm)
    rw [hv, decode_encode]

/-- No command has a CMD above 3 (spec/30_encoding.md R73). -/
theorem Instr.cmd_toNat_le (i : Instr) : (i.cmd.setWidth 32 : Word).toNat ≤ 3 := by
  cases i with
  | nop | keyExpand | encrypt | decrypt => simp [Instr.cmd]

/-- A word of which the mask leaves more than 3 selects no command (spec/30_encoding.md R75). -/
theorem decode_eq_illegal {v : Word} (h : 3 < (v &&& 0xFFFF00FF).toNat) : ∃ why, decode v = .illegal why := by
  cases hd : decode v with
  | illegal why => exact ⟨why, rfl⟩
  | command i =>
    obtain ⟨hmask, -⟩ := decode_eq_command_iff.1 hd
    rw [hmask] at h
    exact absurd i.cmd_toNat_le (Nat.not_le.2 h)

/-- Settles O3, command by command: each CMD is what the mask leaves of its words. -/
theorem decodeFollowsOpcodeMap : Obligations.DecodeFollowsOpcodeMap := by
  intro v
  exact ⟨fun h => decode_eq_command_iff.2 ⟨h, rfl⟩, fun h => decode_eq_command_iff.2 ⟨h, rfl⟩,
    fun h => decode_eq_command_iff.2 ⟨h, rfl⟩, fun h => decode_eq_command_iff.2 ⟨h, rfl⟩, decode_eq_illegal⟩

/-- Settles O4: five words are the encoded words of their commands, three are refused by their fields. -/
theorem sampleWordsDecode : Obligations.SampleWordsDecode :=
  ⟨decode_encode (.nop 0), decode_encode (.keyExpand 16), decode_encode (.encrypt 16), decode_encode (.decrypt 16),
    decode_encode (.encrypt 15), by decide, by decide, by decide⟩

end Sys2Proof

namespace Sys2Proof.Machine

/-- A word that decodes to no command, written to CTRL, is an illegal command (spec/30_encoding.md R75). -/
theorem writeCtrl_of_illegal {v : Word} {why : IllegalReason} (hd : decode v = .illegal why) (s : State) :
    writeCtrl v s = .next (illegalCommand v s) := by
  simp only [writeCtrl, hd]

/-- An illegal word accepted writes CTRL, DONE, ERR and ERRCODE and nothing else (spec/30_encoding.md R75,
spec/40_control.md R90). -/
theorem illegalCommand_of_idle (v : Word) {s : State} (hb : s.status.busy = false) :
    illegalCommand v s = { s with ctrl := v, status := { s.status with done := false, err := true, errcode := 4 } } := by
  rw [illegalCommand, issue_of_idle hb, raiseCoreError_eq, beginAccept_eq]
  rfl

/-- Settles O14: the write reaches CTRL, the word selects no command, and its acceptance records the error. -/
theorem illegalWordRaisesIllegalCmd : Obligations.IllegalWordRaisesIllegalCmd := by
  intro s m v rest he hb hmask
  obtain ⟨why, hd⟩ := decode_eq_illegal hmask
  calc step s
    _ = writeCtrl v (reply m .written (s.withEvents rest)) := step_write (r := .ctrl) he rfl
    _ = .next (illegalCommand v (reply m .written (s.withEvents rest))) := writeCtrl_of_illegal hd _
    _ = _ := congrArg _ (illegalCommand_of_idle v (s := reply m .written (s.withEvents rest)) hb)

end Sys2Proof.Machine
end

