-- ==== Sys2Proof/Proofs/Completion.lean ====
section
/-! PROOF. The step of SEQ: what a completion writes, phase by phase, and what it leaves as it was
(spec/40_control.md R97). -/

namespace Sys2Proof.Machine

/-! SEQ in each phase. -/

theorem seqStep_of_idle {s : State} (h : s.phase = .idle) : seqStep s = s := by simp only [seqStep, h]

theorem seqStep_of_keyx {s : State} (h : s.phase = .keyx) : seqStep s = completeKeyExpand s := by simp only [seqStep, h]

theorem seqStep_of_enc {s : State} (h : s.phase = .enc) : seqStep s = completeEncrypt s := by simp only [seqStep, h]

theorem seqStep_of_dec {s : State} (h : s.phase = .dec) : seqStep s = completeDecrypt s := by simp only [seqStep, h]

/-! SEQ in every phase. -/

/-- After SEQ's step no command is in flight (spec/40_control.md R97). -/
@[simp] theorem seqStep_phase (s : State) : (seqStep s).phase = .idle := by
  cases hp : s.phase with
  | idle => rw [seqStep_of_idle hp, hp]
  | keyx => rw [seqStep_of_keyx hp, completeKeyExpand_eq]
  | enc => rw [seqStep_of_enc hp, completeEncrypt_eq]
  | dec => rw [seqStep_of_dec hp, completeDecrypt_eq]

/-- SEQ places no event and takes none away. -/
@[simp] theorem seqStep_events (s : State) : (seqStep s).events = s.events := by
  cases hp : s.phase with
  | idle => rw [seqStep_of_idle hp]
  | keyx => rw [seqStep_of_keyx hp, completeKeyExpand_eq]
  | enc => rw [seqStep_of_enc hp, completeEncrypt_eq]
  | dec => rw [seqStep_of_dec hp, completeDecrypt_eq]

/-- A completion clears BUSY and sets DONE, and writes neither ERR nor ERRCODE (spec/40_control.md R97). -/
theorem seqStep_status {s : State} (h : s.phase ≠ .idle) :
    ∃ kv, (seqStep s).status = { s.status with busy := false, done := true, keyValid := kv } := by
  cases hp : s.phase with
  | idle => exact absurd hp h
  | keyx => exact ⟨true, by rw [seqStep_of_keyx hp, completeKeyExpand_eq]⟩
  | enc => exact ⟨s.status.keyValid, by rw [seqStep_of_enc hp, completeEncrypt_eq]⟩
  | dec => exact ⟨s.status.keyValid, by rw [seqStep_of_dec hp, completeDecrypt_eq]⟩

/-- Settles O19, phase by phase: the event is consumed and SEQ steps. -/
theorem completionStep : Obligations.CompletionStep := by
  intro s rest he
  have hstep : step s = .next (seqStep (s.withEvents rest)) := step_cons he
  refine ⟨fun hp => ?idle, fun hp => ?keyx, fun hp => ?enc, fun hp => ?dec⟩
  case idle =>
    rw [hstep, seqStep_of_idle (s := s.withEvents rest) hp]
    rfl
  case keyx =>
    rw [hstep, seqStep_of_keyx (s := s.withEvents rest) hp, completeKeyExpand_eq]
    exact ⟨_, rfl⟩
  case enc =>
    rw [hstep, seqStep_of_enc (s := s.withEvents rest) hp, completeEncrypt_eq]
    exact ⟨_, rfl⟩
  case dec =>
    rw [hstep, seqStep_of_dec (s := s.withEvents rest) hp, completeDecrypt_eq]
    exact ⟨_, rfl⟩

end Sys2Proof.Machine
end

