-- ==== Sys2Proof/Proofs/CommandInFlight.lean ====
section
/-! PROOF. A command in flight: CTRL writes are refused, host accesses do not reach what its completion reads, and only its
completion or a reset ends it (spec/40_control.md R93, R96, R99). -/

namespace Sys2Proof.Machine

/-! A CTRL write while BUSY = 1. -/

/-- Any command's meaning while BUSY = 1 is the refusal (spec/40_control.md R96). -/
theorem exec_of_busy (i : Instr) {s : State} (hb : s.status.busy = true) : exec i s = .next (busyViolation s) := by
  rw [exec_eq_issue, issue_of_busy hb]

/-- Settles O15: every way to issue a word comes to the refusal, which is idempotent, and a completion does not write ERR
and ERRCODE. -/
theorem busyWriteRefused : Obligations.BusyWriteRefused := by
  refine ⟨?write, fun i s hb => exec_of_busy i hb, ?twice, ?completed⟩
  case write =>
    intro s m v rest he hb
    exact (step_write (r := .ctrl) he rfl).trans (writeCtrl_of_busy v (s := reply m .written (s.withEvents rest)) hb)
  case twice =>
    intro i j s t hb h
    cases h.symm.trans (exec_of_busy i hb)
    exact exec_of_busy j (s := busyViolation s) hb
  case completed =>
    intro i s t hb hp h
    cases h.symm.trans (exec_of_busy i hb)
    obtain ⟨kv, hstatus⟩ := seqStep_status (s := busyViolation s) hp
    rw [hstatus]
    exact ⟨rfl, rfl, rfl⟩

/-! What host accesses keep of a command in flight. -/

/-- `t` has the command in flight of `s` and everything its completion reads, and holds the result registers of `s`: the
phase and the latches, S, the configuration, DOUT, BUSY and KEY_VALID (spec/40_control.md R97). -/
structure CommandKept (s t : State) : Prop where
  phase : t.phase = s.phase
  busy : t.status.busy = s.status.busy
  keyValid : t.status.keyValid = s.status.keyValid
  kl : t.kl = s.kl
  xl : t.xl = s.xl
  roundKeys : t.roundKeys = s.roundKeys
  dout : t.dout = s.dout
  params : t.params = s.params

theorem CommandKept.refl (s : State) : CommandKept s s := ⟨rfl, rfl, rfl, rfl, rfl, rfl, rfl, rfl⟩

theorem CommandKept.trans {s t u : State} (h : CommandKept s t) (h' : CommandKept t u) : CommandKept s u where
  phase := h'.phase.trans h.phase
  busy := h'.busy.trans h.busy
  keyValid := h'.keyValid.trans h.keyValid
  kl := h'.kl.trans h.kl
  xl := h'.xl.trans h.xl
  roundKeys := h'.roundKeys.trans h.roundKeys
  dout := h'.dout.trans h.dout
  params := h'.params.trans h.params

/-- One access keeps the command in flight: an answer and a store to KEY or DIN are beside it, for the operands are latched
(spec/10_state.md R35), and a CTRL write is refused (spec/40_control.md R96). -/
theorem commandKept_of_hostAccess {m : Nat} {a : Access} {s t : State} (hb : s.status.busy = true)
    (h : hostAccess m a s = .next t) : CommandKept s t := by
  rcases hostAccess_next_cases h with
    ⟨_, _, _, rfl⟩ | ⟨_, _, _, rfl⟩ | ⟨_, _, _, rfl⟩ | ⟨_, _, _, _, rfl⟩ | ⟨_, _, _, _, rfl⟩
  · exact ⟨rfl, rfl, rfl, rfl, rfl, rfl, rfl, rfl⟩
  · exact ⟨rfl, rfl, rfl, rfl, rfl, rfl, rfl, rfl⟩
  · exact ⟨rfl, rfl, rfl, rfl, rfl, rfl, rfl, rfl⟩
  all_goals
    rw [issue_of_busy (s := reply m .written s) hb]
    exact ⟨rfl, rfl, rfl, rfl, rfl, rfl, rfl, rfl⟩

/-- A list of events goes on from the state its first event leads to. -/
theorem runEvents_cons_eq_next {e : Event} {es : List Event} {s t : State} (h : runEvents (e :: es) s = .next t) :
    ∃ u, runEvent e s = .next u ∧ runEvents es u = .next t := by
  simp only [runEvents] at h
  cases hu : runEvent e s with
  | next u =>
    rw [hu] at h
    exact ⟨u, rfl, h⟩
  | fault r => simp [hu] at h
  | refused r => simp [hu] at h

/-- Any list of host accesses keeps the command in flight. -/
theorem commandKept_of_runEvents {es : List Event} {s t : State} (hb : s.status.busy = true)
    (hes : ∀ e ∈ es, ∃ m a, e = .host m a) (h : runEvents es s = .next t) : CommandKept s t := by
  induction es generalizing s with
  | nil =>
    cases h
    exact .refl _
  | cons e es ih =>
    obtain ⟨⟨m, a, rfl⟩, hrest⟩ := List.forall_mem_cons.1 hes
    obtain ⟨u, hu, ht⟩ := runEvents_cons_eq_next h
    have hkept : CommandKept s u := commandKept_of_hostAccess hb hu
    exact hkept.trans (ih (hkept.busy.trans hb) hrest ht)

/-- Completions of the same command give the same result: S, DOUT and KEY_VALID (spec/40_control.md R97). -/
theorem CommandKept.seqStep_result {s t : State} (h : CommandKept s t) :
    (seqStep t).roundKeys = (seqStep s).roundKeys ∧ (seqStep t).dout = (seqStep s).dout ∧
    (seqStep t).status.keyValid = (seqStep s).status.keyValid := by
  cases hp : s.phase with
  | idle =>
    rw [seqStep_of_idle (h.phase.trans hp), seqStep_of_idle hp]
    exact ⟨h.roundKeys, h.dout, h.keyValid⟩
  | keyx =>
    rw [seqStep_of_keyx (h.phase.trans hp), seqStep_of_keyx hp, completeKeyExpand_eq, completeKeyExpand_eq]
    exact ⟨by rw [h.params, h.kl], h.dout, rfl⟩
  | enc =>
    rw [seqStep_of_enc (h.phase.trans hp), seqStep_of_enc hp, completeEncrypt_eq, completeEncrypt_eq]
    exact ⟨h.roundKeys, by rw [h.params, h.roundKeys, h.xl], h.keyValid⟩
  | dec =>
    rw [seqStep_of_dec (h.phase.trans hp), seqStep_of_dec hp, completeDecrypt_eq, completeDecrypt_eq]
    exact ⟨h.roundKeys, by rw [h.params, h.roundKeys, h.xl], h.keyValid⟩

/-- Settles O42, by induction on the accesses: each keeps the command in flight, and its completion sees no more than
that. -/
theorem hostAccessesDoNotReachCommandInFlight : Obligations.HostAccessesDoNotReachCommandInFlight := by
  intro s t es hb hp hes h
  have hkept : CommandKept s t := commandKept_of_runEvents hb hes h
  obtain ⟨hkeys, hdout, hvalid⟩ := hkept.seqStep_result
  obtain ⟨kv, hstatus⟩ := seqStep_status (s := t) (hkept.phase.trans_ne hp)
  exact ⟨hkept.phase, hkeys, hdout, hvalid, by rw [hstatus], by rw [hstatus]⟩

/-- Settles O39, by the ways of a step: of those that are no completion and no reset only an acceptance writes the phase,
BUSY or a latch, and a core with a command in flight accepts nothing. -/
theorem noCancellation : Obligations.NoCancellation := by
  intro s t hi hp h
  have hb : s.status.busy = true := hi.busy_iff.2 hp
  cases stepped_of_step h with
  | reset es hnext => exact .inl hnext
  | nothingCompleted es hnext => exact absurd hnext.1 hp
  | keyCompleted es hnext => exact .inr (.inl (by rw [hnext.1]; exact hnext))
  | blockCompleted es w hnext =>
    refine .inr (.inl ?_)
    rcases hnext with ⟨hnext, _⟩ | ⟨hnext, _⟩ <;> (rw [hnext.1]; exact hnext)
  | accepted es rs v t hnext hacc => exact (nomatch hb.symm.trans hnext.2)
  | _ => exact .inr (.inr ⟨rfl, hb, rfl, rfl, rfl⟩)

end Sys2Proof.Machine
end

