-- ==== Sys2Proof/Proofs/Acceptance.lean ====
section
/-! PROOF. What an accepted command leaves in STATUS and CTRL (spec/40_control.md R90, R91, R95). -/

namespace Sys2Proof

/-- The low byte of a command word holds CMD and a zero RSV0 (spec/30_encoding.md R70). -/
theorem commandWord_eq_append (len : BitVec 8) (cmd : BitVec 4) :
    commandWord len cmd = (0 : BitVec 16) ++ len ++ ((0 : BitVec 4) ++ cmd) :=
  BitVec.append_assoc.trans (BitVec.cast_eq _ _)

/-- The word of NOP is its LEN above a zero byte (spec/30_encoding.md R73). -/
theorem encode_nop (len : BitVec 8) : encode (.nop len) = (0 : BitVec 16) ++ len ++ (0x00 : BitVec 8) := by
  have hbyte : (0 : BitVec 4) ++ (0x0 : BitVec 4) = (0x00 : BitVec 8) := by decide
  rw [← hbyte]
  exact commandWord_eq_append len 0x0

end Sys2Proof

namespace Sys2Proof.Machine

/-- Settles O6: NOP's part of the acceptance sets DONE, and the common part stores the word and clears ERR and ERRCODE. -/
theorem nopAcknowledges : Obligations.NopAcknowledges := by
  intro len s hb
  rw [exec_eq_issue, issue_of_idle hb, beginAccept_eq, encode_nop]
  rfl

/-- Settles O17, by the ways of an acceptance. -/
theorem acceptedCommandEndsOneWay : Obligations.AcceptedCommandEndsOneWay := by
  intro i s hb hp
  refine ⟨_, exec_eq_issue i s, ?_⟩
  rcases acceptance_cases i s hb with
    ⟨hi, h⟩ | ⟨_, _, h⟩ | ⟨rfl, h⟩ | ⟨_, _, h⟩ | ⟨_, _, h⟩ | ⟨rfl, _, h⟩ | ⟨rfl, _, h⟩ <;> rw [h]
  · exact .inr (.inl ⟨hi, rfl, rfl, hb, hp⟩)
  · exact .inl ⟨rfl, rfl, hb, hp⟩
  · exact .inr (.inr ⟨by decide, rfl, rfl, rfl, rfl, by simp⟩)
  · exact .inl ⟨rfl, rfl, hb, hp⟩
  · exact .inl ⟨rfl, rfl, hb, hp⟩
  · exact .inr (.inr ⟨by decide, rfl, rfl, rfl, rfl, by simp⟩)
  · exact .inr (.inr ⟨by decide, rfl, rfl, rfl, rfl, by simp⟩)

end Sys2Proof.Machine
end

