-- ==== Sys2Proof/Proofs/Progress.lean ====
section
/-! PROOF. The machine goes on at every event that concerns the core, each step consumes one, and after them SEQ ends what
is in flight (spec/40_control.md R98, R100). -/

namespace Sys2Proof.Machine

/-! No event that concerns the core stops the machine. -/

/-- An access whose address is in the window gives a next state (spec/20_memory.md R56 to R58). -/
theorem hostAccess_next (m : Nat) {a : Access} {s : State} (h : inWindow s.params a.addr = true) :
    ∃ t, hostAccess m a s = .next t := by
  cases a with
  | read addr shape =>
    have hw : inWindow s.params addr = true := h
    simp only [hostAccess, if_pos hw]
    cases target shape (addr - windowBase s.params) with
    | none => exact ⟨_, rfl⟩
    | some r => exact ⟨_, rfl⟩
  | write addr shape v =>
    have hw : inWindow s.params addr = true := h
    simp only [hostAccess, if_pos hw]
    cases target shape (addr - windowBase s.params) with
    | none => exact ⟨_, rfl⟩
    | some r => exact writeReg_next r v _

/-- An event that concerns the core gives a next state. -/
theorem runEvent_next {e : Event} {s : State} (h : e.concernsCore s.params = true) : ∃ t, runEvent e s = .next t := by
  cases e with
  | host m a => exact hostAccess_next m h
  | seqComplete => exact ⟨_, rfl⟩
  | reset => exact ⟨_, rfl⟩

/-- Settles O40, by the next event: with none pending SEQ steps. -/
theorem onlyForeignAccessStops : Obligations.OnlyForeignAccessStops := by
  intro s hs
  cases he : s.events with
  | nil => exact ⟨_, step_nil he⟩
  | cons e es =>
    rw [step_cons he]
    exact runEvent_next (s := s.withEvents es) (hs e (by rw [he]; rfl))

/-! Each step consumes its event and places none. -/

@[simp] theorem issue_command_events (i : Instr) (s : State) : (issue (encode i) (startOf i) s).events = s.events := by
  obtain ⟨t, ht, -, -, -, -, -, -, -, hevents, -⟩ := commandFrame i s
  cases (exec_eq_issue i s).symm.trans ht
  exact hevents

@[simp] theorem issue_illegal_events (v : Word) (s : State) :
    (issue v (raiseCoreError .illegalCmd) s).events = s.events := by
  cases hb : s.status.busy with
  | true => rw [issue_of_busy hb, busyViolation_eq]
  | false => rw [issue_of_idle hb, raiseCoreError_eq, beginAccept_eq]

/-- An access places no event and takes none away. -/
theorem hostAccess_events {m : Nat} {a : Access} {s t : State} (h : hostAccess m a s = .next t) :
    t.events = s.events := by
  rcases hostAccess_next_cases h with
    ⟨_, _, _, rfl⟩ | ⟨_, _, _, rfl⟩ | ⟨_, _, _, rfl⟩ | ⟨v, i, _, _, rfl⟩ | ⟨v, _, _, _, rfl⟩
  · rfl
  · rfl
  · rfl
  · exact issue_command_events i (reply m .written s)
  · exact issue_illegal_events v (reply m .written s)

/-- A step consumes the event it makes. -/
theorem step_events {s t : State} (h : step s = .next t) : t.events = s.events.tail := by
  rcases step_next_cases h with ⟨he, rfl⟩ | ⟨_, he, rfl⟩ | ⟨_, he, rfl⟩ | ⟨_, _, _, he, hacc⟩
  · rw [seqStep_events, he, List.tail_nil]
  · rw [seqStep_events, he, State.withEvents_events, List.tail_cons]
  · rw [resetCore_events, he, State.withEvents_events, List.tail_cons]
  · rw [hostAccess_events hacc, he, State.withEvents_events, List.tail_cons]

/-- Settles O41, by induction on the pending events: each is consumed by one step, and when none is left the next step is
SEQ's. -/
theorem commandInFlightCompletes : Obligations.CommandInFlightCompletes := by
  intro s hs
  induction he : s.events generalizing s with
  | nil => exact ⟨1, seqStep s, le_rfl, run_of_next (step_nil he), seqStep_phase s⟩
  | cons e es ih =>
    obtain ⟨t, ht⟩ := onlyForeignAccessStops s fun e' he' => hs e' (List.mem_of_mem_head? he')
    have hevents : t.events = es := by rw [step_events ht, he, List.tail_cons]
    have hconcern : ∀ e' ∈ t.events, e'.concernsCore t.params = true := by
      rw [hevents, step_params ht]
      exact fun e' he' => hs e' (he ▸ List.mem_cons_of_mem e he')
    obtain ⟨n, u, hn, hrun, hphase⟩ := ih t hconcern hevents
    exact ⟨n + 1, u, by simpa using hn, (run_of_next ht).trans hrun, hphase⟩

end Sys2Proof.Machine
end

