-- ==== Sys2Proof/Proofs/KeySchedule.lean ====
section
/-! PROOF. KEY_EXPAND from its acceptance to its completion (spec/41_key_schedule.md R111 to R119), and the schedule of the
zero key (R120). -/

namespace Sys2Proof

/-- The word of KEY_EXPAND is its LEN above the byte 0x01 (spec/30_encoding.md R73). -/
theorem encode_keyExpand (len : BitVec 8) : encode (.keyExpand len) = (0 : BitVec 16) ++ len ++ (0x01 : BitVec 8) := by
  have hbyte : (0 : BitVec 4) ++ (0x1 : BitVec 4) = (0x01 : BitVec 8) := by decide
  rw [← hbyte]
  exact commandWord_eq_append len 0x1

end Sys2Proof

namespace Sys2Proof.Machine

/-! The acceptance. -/

/-- A core that is not busy accepts KEY_EXPAND: the common part of the acceptance, then KEY_EXPAND's own
(spec/40_control.md R90). -/
theorem exec_keyExpand_of_idle (len : BitVec 8) {s : State} (hb : s.status.busy = false) :
    exec (.keyExpand len) s = .next (startKeyExpand (operandLength len) (beginAccept (encode (.keyExpand len)) s)) := by
  rw [exec_eq_issue, issue_of_idle hb, startOf]

/-- KEY_EXPAND's own part with LEN = 16 (spec/41_key_schedule.md R111). -/
theorem startKeyExpand_keyBytes (s : State) : startKeyExpand (operandLength 16) s = { s with
    kl := latchBytes s.key, phase := .keyx, status := { s.status with keyValid := false, busy := true } } := by
  obtain ⟨hn, _⟩ | ⟨_, h⟩ := startKeyExpand_cases (operandLength 16) s
  · exact absurd rfl hn
  · exact h

/-- KEY_EXPAND's own part with another LEN (spec/41_key_schedule.md R112). -/
theorem startKeyExpand_of_ne {len : BitVec 8} (hlen : len ≠ 16) (s : State) :
    startKeyExpand (operandLength len) s =
      { s with status := { s.status with keyValid := false, err := true, errcode := 2 } } := by
  obtain ⟨_, h⟩ | ⟨hn, _⟩ := startKeyExpand_cases (operandLength len) s
  · exact h
  · exact absurd (operandLength_eq_16.1 hn) hlen

/-- Settles O7: the common part of the acceptance stores the word, KEY_EXPAND's own part latches the key and goes busy. -/
theorem keyExpandStarts : Obligations.KeyExpandStarts := by
  intro s hb
  rw [exec_keyExpand_of_idle 16 hb, startKeyExpand_keyBytes, beginAccept_eq, encode_keyExpand]
  rfl

/-- Settles O8: the common part of the acceptance stores the word, KEY_EXPAND's own part only writes STATUS. -/
theorem keyExpandWrongLength : Obligations.KeyExpandWrongLength := by
  intro len s hb hlen
  rw [exec_keyExpand_of_idle len hb, startKeyExpand_of_ne hlen, beginAccept_eq, encode_keyExpand]

/-! From the acceptance to the completion. -/

/-- Settles O51: the acceptance latches the key, host accesses keep the command in flight with its latch, and the completion
expands the latch. -/
theorem keyExpandDeliversSchedule : Obligations.KeyExpandDeliversSchedule := by
  intro s t es hb hes
  refine ⟨_, keyExpandStarts s hb, fun hrun => ?_⟩
  have hkept := commandKept_of_runEvents rfl hes hrun
  rw [seqStep_of_keyx hkept.phase, completeKeyExpand_eq]
  exact ⟨by rw [hkept.params, hkept.kl], rfl, rfl, rfl⟩

/-! The array the mixing starts from. -/

/-- Counting up in steps of `q`, one step first is one step more. -/
theorem add_succ_steps (w q : Word) (i : Nat) : w + BitVec.ofNat 32 (i + 1) * q = w + q + BitVec.ofNat 32 i * q := by
  rw [BitVec.ofNat_add, add_mul, show BitVec.ofNat 32 1 = 1 from rfl, one_mul, add_comm (_ * q), add_assoc]

/-- Word `i` of the seeding from `w` on is `w` and `i` times Q32 (spec/41_key_schedule.md R113 step 2). -/
theorem seedList_getElem? {n i : Nat} (hi : i < n) (w : Word) :
    (seedList n w)[i]? = some (w + BitVec.ofNat 32 i * q32) := by
  induction n generalizing w i with
  | zero => exact absurd hi (Nat.not_lt_zero i)
  | succ n ih =>
    rw [seedList]
    cases i with
    | zero => simp
    | succ i => rw [List.getElem?_cons_succ, ih (Nat.lt_of_succ_lt_succ hi), add_succ_steps]

/-- Word `i` of the seeded array is P32 + i * Q32 (spec/41_key_schedule.md R113, R114). -/
theorem seededKeys_getElem (i : Fin 44) : seededKeys[i] = p32 + BitVec.ofNat 32 i.val * q32 := by
  obtain ⟨_, h⟩ := List.getElem?_eq_some_iff.1 (seedList_getElem? i.isLt p32)
  exact h

/-! The zero key. -/

/-- A key of sixteen equal bytes has the same schedule under either word order, for each of its words is the same under
either (spec/20_memory.md R54). -/
theorem keyExpand_replicate (o o' : WordOrder) (b : Byte) :
    keyExpand o (Vector.replicate 16 b) = keyExpand o' (Vector.replicate 16 b) := by
  have hword (k : Fin 4) : loadWord o (Vector.replicate 16 b) k = loadWord o' (Vector.replicate 16 b) k := by
    simp only [loadWord, Vector.getElem_replicate]
    cases o <;> cases o' <;> rfl
  simp only [keyExpand, keyWorkInit, hword]

/-- The first four round keys of the zero key (spec/41_key_schedule.md R120). -/
theorem keyExpand_zero_first :
    let s := keyExpand .le (Vector.replicate 16 0)
    s[0] = 0x2A66311C ∧ s[1] = 0x9B17852D ∧ s[2] = 0x8108B207 ∧ s[3] = 0x39D14185 := by decide +kernel

/-- The last four round keys of the zero key (spec/41_key_schedule.md R120). -/
theorem keyExpand_zero_last :
    let s := keyExpand .le (Vector.replicate 16 0)
    s[40] = 0x55FCC1B3 ∧ s[41] = 0xC5BD8DB7 ∧ s[42] = 0x05B4016A ∧ s[43] = 0x4B38AC83 := by decide +kernel

/-- Settles O50: the eight round keys are the mixing run out, and neither the word order nor the seeding needs a run. -/
theorem zeroKeySchedule : Obligations.ZeroKeySchedule := by
  obtain ⟨h0, h1, h2, h3⟩ := keyExpand_zero_first
  obtain ⟨h40, h41, h42, h43⟩ := keyExpand_zero_last
  exact ⟨h0, h1, h2, h3, h40, h41, h42, h43, keyExpand_replicate .be .le 0, seededKeys_getElem⟩

end Sys2Proof.Machine
end

