-- ==== Sys2Proof/Proofs/Rc6.lean ====
section
/-! PROOF. RC6 on words and blocks (spec/42_block_cipher.md R130, R145, R153): the quadratic function by signed
multiplication, the two transforms as inverses of each other, and the published vectors. -/

namespace Sys2Proof.Machine

/-! The quadratic function. -/

/-- The product of the quadratic function is the wrapped product of signed integers: wrapping to 32 bits is a ring
homomorphism, and the value of a word wraps to the word (spec/42_block_cipher.md R130). -/
theorem mul_two_mul_add_one_eq_ofInt (x : Word) : x * (2 * x + 1) = BitVec.ofInt 32 (x.toInt * (2 * x.toInt + 1)) := by
  rw [BitVec.ofInt_mul, BitVec.ofInt_add, BitVec.ofInt_mul, BitVec.ofInt_toInt]
  rfl

/-- Settles O45: the product by signed integers, and the model's rotation is the library's. -/
theorem quadraticFunction : Obligations.QuadraticFunction := by
  refine ⟨fun x => ?_, by decide, by decide, by decide, by decide⟩
  rw [quadratic, rotl_eq_rotateLeft, mul_two_mul_add_one_eq_ofInt]

/-! One transform undoes another. The working words t and u are written and never undone, so they are left out of the
comparison. -/

/-- The words A, B, C, D, which the bytes of a block are made of; t and u are not among them. -/
def BlockWork.words (w : BlockWork) : Quad := #v[w.a, w.b, w.c, w.d]

theorem BlockWork.words_eq_iff {v w : BlockWork} :
    v.words = w.words ↔ v.a = w.a ∧ v.b = w.b ∧ v.c = w.c ∧ v.d = w.d := by
  simp [BlockWork.words]

/-- The bytes of a block depend on A, B, C, D alone. -/
theorem storeBlock_congr {v w : BlockWork} (h : v.words = w.words) (o : WordOrder) : storeBlock o v = storeBlock o w := by
  obtain ⟨ha, hb, hc, hd⟩ := BlockWork.words_eq_iff.1 h
  rw [storeBlock, storeBlock, ha, hb, hc, hd]

/-- Loading the stored words gives the words (spec/20_memory.md R54). -/
theorem words_loadBlock_storeBlock (o : WordOrder) (w : BlockWork) :
    (loadBlock o (storeBlock o w)).words = w.words := by
  simp [loadBlock, storeBlock, BlockWork.words]

/-- Storing the loaded words gives the block (spec/20_memory.md R54). -/
theorem storeBlock_loadBlock (o : WordOrder) (x : Block) : storeBlock o (loadBlock o x) = x :=
  storeWords_loadWord o x

/-- `g` undoes `f` on A, B, C, D, and what it makes of them depends on them alone. -/
structure Undoes (g f : BlockWork → BlockWork) : Prop where
  congr : ∀ {v w : BlockWork}, v.words = w.words → (g v).words = (g w).words
  undo : ∀ w : BlockWork, (g (f w)).words = w.words

namespace Undoes

/-- A change that does not read t and u depends on the words alone. -/
theorem of_temps_unread {f g : BlockWork → BlockWork}
    (hg : ∀ (w : BlockWork) (t u : Word), (g { w with t := t, u := u }).words = (g w).words)
    (hundo : ∀ w : BlockWork, (g (f w)).words = w.words) : Undoes g f where
  congr {v w} h := by
    obtain ⟨ha, hb, hc, hd⟩ := BlockWork.words_eq_iff.1 h
    have hv : v = { w with t := v.t, u := v.u } := by rw [← ha, ← hb, ← hc, ← hd]
    rw [hv, hg]
  undo := hundo

/-- Two changes are undone in the other order. -/
theorem comp {f g f' g' : BlockWork → BlockWork} (h : Undoes g f) (h' : Undoes g' f') : Undoes (g ∘ g') (f' ∘ f) where
  congr hvw := h.congr (h'.congr hvw)
  undo w := (h.congr (h'.undo (f w))).trans (h.undo w)

/-- What is undone on the words is undone on the bytes of a block, under either word order. -/
theorem on_blocks {f g : BlockWork → BlockWork} (h : Undoes g f) (o : WordOrder) (x : Block) :
    storeBlock o (g (loadBlock o (storeBlock o (f (loadBlock o x))))) = x := by
  have hwords : (g (loadBlock o (storeBlock o (f (loadBlock o x))))).words = (loadBlock o x).words :=
    (h.congr (words_loadBlock_storeBlock o (f (loadBlock o x)))).trans (h.undo (loadBlock o x))
  exact (storeBlock_congr hwords o).trans (storeBlock_loadBlock o x)

end Undoes

/-! The parts of a transform, both ways (spec/42_block_cipher.md R141, R151). -/

/-- An equation of a decryption round takes back that of the encryption round: the key, the rotation, the xor. -/
theorem undo_roundEquation (a t k : Word) (n : Nat) : rotr (rotl (a ^^^ t) n + k - k) n ^^^ t = a := by
  rw [BitVec.add_sub_cancel, rotr_rotl, BitVec.xor_assoc, BitVec.xor_self, BitVec.xor_zero]

/-- The equation of an encryption round takes back that of the decryption round. -/
theorem redo_roundEquation (a t k : Word) (n : Nat) : rotl (rotr (a - k) n ^^^ t ^^^ t) n + k = a := by
  rw [BitVec.xor_assoc, BitVec.xor_self, BitVec.xor_zero, rotl_rotr, BitVec.sub_add_cancel]

section

variable (s : RoundKeys)

theorem undoPreWhiten_undoes : Undoes (undoPreWhiten s) (preWhiten s) :=
  .of_temps_unread (fun _ _ _ => rfl) fun w => by
    simp only [BlockWork.words, undoPreWhiten, preWhiten, BitVec.add_sub_cancel]

theorem preWhiten_undoes : Undoes (preWhiten s) (undoPreWhiten s) :=
  .of_temps_unread (fun _ _ _ => rfl) fun w => by
    simp only [BlockWork.words, undoPreWhiten, preWhiten, BitVec.sub_add_cancel]

theorem undoPostWhiten_undoes : Undoes (undoPostWhiten s) (postWhiten s) :=
  .of_temps_unread (fun _ _ _ => rfl) fun w => by
    simp only [BlockWork.words, undoPostWhiten, postWhiten, BitVec.add_sub_cancel]

theorem postWhiten_undoes : Undoes (postWhiten s) (undoPostWhiten s) :=
  .of_temps_unread (fun _ _ _ => rfl) fun w => by
    simp only [BlockWork.words, undoPostWhiten, postWhiten, BitVec.sub_add_cancel]

theorem decRound_undoes (i : Nat) : Undoes (decRound s i) (encRound s i) :=
  .of_temps_unread (fun _ _ _ => rfl) fun w => by
    simp only [BlockWork.words, decRound, encRound, undo_roundEquation]

theorem encRound_undoes (i : Nat) : Undoes (encRound s i) (decRound s i) :=
  .of_temps_unread (fun _ _ _ => rfl) fun w => by
    simp only [BlockWork.words, decRound, encRound, redo_roundEquation]

/-- The decryption rounds undo the encryption rounds, the last first. -/
theorem decRounds_undoes (n : Nat) : Undoes (decRounds s n) (encRounds s n) := by
  induction n with
  | zero => exact ⟨id, fun _ => rfl⟩
  | succ n ih => exact ih.comp (decRound_undoes s (n + 1))

theorem encRounds_undoes (n : Nat) : Undoes (encRounds s n) (decRounds s n) := by
  induction n with
  | zero => exact ⟨id, fun _ => rfl⟩
  | succ n ih => exact (encRound_undoes s (n + 1)).comp ih

end

/-! The transforms on blocks (spec/42_block_cipher.md R153). -/

@[simp] theorem rc6Decrypt_rc6Encrypt (o : WordOrder) (s : RoundKeys) (x : Block) :
    rc6Decrypt o s (rc6Encrypt o s x) = x :=
  ((undoPreWhiten_undoes s).comp ((decRounds_undoes s roundCount).comp (undoPostWhiten_undoes s))).on_blocks o x

@[simp] theorem rc6Encrypt_rc6Decrypt (o : WordOrder) (s : RoundKeys) (x : Block) :
    rc6Encrypt o s (rc6Decrypt o s x) = x :=
  ((postWhiten_undoes s).comp ((encRounds_undoes s roundCount).comp (preWhiten_undoes s))).on_blocks o x

/-! The published vectors (spec/42_block_cipher.md R145). Each is a full key schedule and one block, so each is run by
itself. -/

/-- The key of the second vector. -/
def vectorKey : Block :=
  #v[0x01, 0x23, 0x45, 0x67, 0x89, 0xab, 0xcd, 0xef, 0x01, 0x12, 0x23, 0x34, 0x45, 0x56, 0x67, 0x78]

/-- The plaintext of the second vector. -/
def vectorText : Block :=
  #v[0x02, 0x13, 0x24, 0x35, 0x46, 0x57, 0x68, 0x79, 0x8a, 0x9b, 0xac, 0xbd, 0xce, 0xdf, 0xe0, 0xf1]

theorem rc6Encrypt_le_zero : rc6Encrypt .le (keyExpand .le (Vector.replicate 16 0)) (Vector.replicate 16 0) =
    #v[0x8f, 0xc3, 0xa5, 0x36, 0x56, 0xb1, 0xf7, 0x78, 0xc1, 0x29, 0xdf, 0x4e, 0x98, 0x48, 0xa4, 0x1e] := by
  decide +kernel

theorem rc6Encrypt_le_vectorText : rc6Encrypt .le (keyExpand .le vectorKey) vectorText =
    #v[0x52, 0x4e, 0x19, 0x2f, 0x47, 0x15, 0xc6, 0x23, 0x1f, 0x51, 0xf6, 0x36, 0x7e, 0xa4, 0x3f, 0x18] := by
  decide +kernel

theorem rc6Encrypt_be_zero : rc6Encrypt .be (keyExpand .be (Vector.replicate 16 0)) (Vector.replicate 16 0) =
    #v[0x36, 0xa5, 0xc3, 0x8f, 0x78, 0xf7, 0xb1, 0x56, 0x4e, 0xdf, 0x29, 0xc1, 0x1e, 0xa4, 0x48, 0x98] := by
  decide +kernel

theorem rc6Encrypt_be_vectorText : rc6Encrypt .be (keyExpand .be vectorKey) vectorText =
    #v[0x12, 0xff, 0xbe, 0x50, 0xd9, 0x16, 0xdc, 0x1d, 0xbf, 0x1f, 0x62, 0x4d, 0x2d, 0xd2, 0x07, 0x1f] := by
  decide +kernel

/-- Settles O49: the four vectors, run out. -/
theorem knownAnswers : Obligations.KnownAnswers :=
  ⟨rc6Encrypt_le_zero, rc6Encrypt_le_vectorText, rc6Encrypt_be_zero, rc6Encrypt_be_vectorText⟩

end Sys2Proof.Machine
end

