-- ==== Sys2Proof/Proofs/BlockCipher.lean ====
section
/-! PROOF. ENCRYPT and DECRYPT from their acceptance to their completion (spec/42_block_cipher.md R140 to R143, R150 to
R153). -/

namespace Sys2Proof

/-- The word of ENCRYPT is its LEN above the byte 0x02 (spec/30_encoding.md R73). -/
theorem encode_encrypt (len : BitVec 8) : encode (.encrypt len) = (0 : BitVec 16) ++ len ++ (0x02 : BitVec 8) := by
  have hbyte : (0 : BitVec 4) ++ (0x2 : BitVec 4) = (0x02 : BitVec 8) := by decide
  rw [← hbyte]
  exact commandWord_eq_append len 0x2

/-- The word of DECRYPT is its LEN above the byte 0x03 (spec/30_encoding.md R73). -/
theorem encode_decrypt (len : BitVec 8) : encode (.decrypt len) = (0 : BitVec 16) ++ len ++ (0x03 : BitVec 8) := by
  have hbyte : (0 : BitVec 4) ++ (0x3 : BitVec 4) = (0x03 : BitVec 8) := by decide
  rw [← hbyte]
  exact commandWord_eq_append len 0x3

end Sys2Proof

namespace Sys2Proof.Machine

/-! A block command's own part of the acceptance, by its three ways. -/

/-- With LEN = 16 and a key the block is latched and the command goes busy (spec/42_block_cipher.md R140, R150). -/
theorem startBlock_of_key (p : Phase) {s : State} (hk : s.status.keyValid = true) :
    startBlock p (operandLength 16) s =
      { s with xl := latchBytes s.din, phase := p, status := { s.status with busy := true } } := by
  obtain ⟨hn, _⟩ | ⟨_, hno, _⟩ | ⟨_, _, h⟩ := startBlock_cases p (operandLength 16) s
  · exact absurd rfl hn
  · exact nomatch hk.symm.trans hno
  · exact h

/-- With LEN = 16 and no key NO_KEY is recorded (spec/42_block_cipher.md R143, R152). -/
theorem startBlock_of_no_key (p : Phase) {s : State} (hk : s.status.keyValid = false) :
    startBlock p (operandLength 16) s = { s with status := { s.status with err := true, errcode := 3 } } := by
  obtain ⟨hn, _⟩ | ⟨_, _, h⟩ | ⟨_, hyes, _⟩ := startBlock_cases p (operandLength 16) s
  · exact absurd rfl hn
  · exact h
  · exact nomatch hk.symm.trans hyes

/-- With another LEN INVALID_INPUT is recorded, whether or not there is a key (spec/42_block_cipher.md R142, R152). -/
theorem startBlock_of_ne (p : Phase) {len : BitVec 8} (hlen : len ≠ 16) (s : State) :
    startBlock p (operandLength len) s = { s with status := { s.status with err := true, errcode := 1 } } := by
  obtain ⟨_, h⟩ | ⟨hn, _⟩ | ⟨hn, _⟩ := startBlock_cases p (operandLength len) s
  · exact h
  · exact absurd (operandLength_eq_16.1 hn) hlen
  · exact absurd (operandLength_eq_16.1 hn) hlen

/-! The acceptances: the common part stores the word and clears DONE, ERR and ERRCODE, then the command's own part
(spec/40_control.md R90). -/

theorem exec_encrypt_of_idle (len : BitVec 8) {s : State} (hb : s.status.busy = false) :
    exec (.encrypt len) s =
      .next (startBlock .enc (operandLength len) (beginAccept ((0 : BitVec 16) ++ len ++ (0x02 : BitVec 8)) s)) := by
  rw [exec_eq_issue, issue_of_idle hb, startOf, encode_encrypt]

theorem exec_decrypt_of_idle (len : BitVec 8) {s : State} (hb : s.status.busy = false) :
    exec (.decrypt len) s =
      .next (startBlock .dec (operandLength len) (beginAccept ((0 : BitVec 16) ++ len ++ (0x03 : BitVec 8)) s)) := by
  rw [exec_eq_issue, issue_of_idle hb, startOf, encode_decrypt]

/-- Settles O9: the command's own part finds LEN and the key right. -/
theorem encryptStarts : Obligations.EncryptStarts := by
  intro s hb hk
  rw [exec_encrypt_of_idle 16 hb, startBlock_of_key .enc (s := beginAccept _ s) hk, beginAccept_eq]
  rfl

/-- Settles O10: the check of LEN comes before that of the key. -/
theorem encryptWrongLength : Obligations.EncryptWrongLength := by
  intro len s hb hlen
  rw [exec_encrypt_of_idle len hb, startBlock_of_ne .enc hlen, beginAccept_eq]

/-- Settles O11: the key is missing, LEN is right. -/
theorem encryptWithoutKey : Obligations.EncryptWithoutKey := by
  intro s hb hk
  rw [exec_encrypt_of_idle 16 hb, startBlock_of_no_key .enc (s := beginAccept _ s) hk, beginAccept_eq]
  rfl

/-- Settles O12: the command's own part finds LEN and the key right. -/
theorem decryptStarts : Obligations.DecryptStarts := by
  intro s hb hk
  rw [exec_decrypt_of_idle 16 hb, startBlock_of_key .dec (s := beginAccept _ s) hk, beginAccept_eq]
  rfl

/-- Settles O13, by LEN: it is checked first, so with LEN = 16 it is the key that is missing. -/
theorem decryptRefusals : Obligations.DecryptRefusals := by
  intro len s hb hwhy
  rw [exec_decrypt_of_idle len hb]
  by_cases hlen : len = 16
  · subst hlen
    have hk : s.status.keyValid = false := hwhy.resolve_left (absurd rfl)
    rw [startBlock_of_no_key .dec (s := beginAccept _ s) hk, beginAccept_eq, if_pos rfl]
  · rw [startBlock_of_ne .dec hlen, beginAccept_eq, if_neg hlen]

/-! From the acceptance to the completion. -/

/-- Settles O52: the acceptance latches the block, host accesses keep the command in flight with its latch and S, and the
completion transforms the latch. -/
theorem blockCommandDeliversTransform : Obligations.BlockCommandDeliversTransform := by
  intro s t es hb hk hes
  refine ⟨⟨_, encryptStarts s hb hk, fun hrun => ?enc⟩, ⟨_, decryptStarts s hb hk, fun hrun => ?dec⟩⟩
  case enc =>
    have hkept := commandKept_of_runEvents rfl hes hrun
    rw [seqStep_of_enc hkept.phase, completeEncrypt_eq]
    simp only [hkept.params, hkept.roundKeys, hkept.xl]
  case dec =>
    have hkept := commandKept_of_runEvents rfl hes hrun
    rw [seqStep_of_dec hkept.phase, completeDecrypt_eq]
    simp only [hkept.params, hkept.roundKeys, hkept.xl]

/-- A completed ENCRYPT leaves the core idle, and the key, S and the configuration as they were: what the next block
command works under (spec/40_control.md R97). -/
theorem encrypt_completes {s : State} (hb : s.status.busy = false) (hk : s.status.keyValid = true) :
    ∃ t, exec (.encrypt 16) s = .next t ∧
      (seqStep t).dout = packBytes (rc6Encrypt s.params.wordOrder s.roundKeys (latchBytes s.din)) ∧
      (seqStep t).status.busy = false ∧ (seqStep t).status.keyValid = true ∧
      (seqStep t).roundKeys = s.roundKeys ∧ (seqStep t).params = s.params := by
  refine ⟨_, encryptStarts s hb hk, ?_⟩
  rw [seqStep_of_enc rfl, completeEncrypt_eq]
  exact ⟨rfl, rfl, hk, rfl, rfl⟩

/-- A completed DECRYPT delivers its transform (spec/40_control.md R97). -/
theorem decrypt_completes {s : State} (hb : s.status.busy = false) (hk : s.status.keyValid = true) :
    ∃ t, exec (.decrypt 16) s = .next t ∧
      (seqStep t).dout = packBytes (rc6Decrypt s.params.wordOrder s.roundKeys (latchBytes s.din)) := by
  refine ⟨_, decryptStarts s hb hk, ?_⟩
  rw [seqStep_of_dec rfl, completeDecrypt_eq]

/-- Settles O48: the transforms are inverse, and on the machine each of the two commands delivers its transform, the second
under the schedule that the first left. -/
theorem decryptInvertsEncrypt : Obligations.DecryptInvertsEncrypt := by
  refine ⟨fun o s x => ⟨rc6Decrypt_rc6Encrypt o s x, rc6Encrypt_rc6Decrypt o s x⟩, fun s hb hk => ?_⟩
  obtain ⟨t, ht, hcipher, hidle, hkey, hkeys, hparams⟩ := encrypt_completes hb hk
  obtain ⟨u, hu, hplain⟩ := decrypt_completes (s := { seqStep t with din := (seqStep t).dout }) hidle hkey
  refine ⟨t, u, ht, hu, ?_⟩
  calc (seqStep u).dout
    _ = packBytes (rc6Decrypt (seqStep t).params.wordOrder (seqStep t).roundKeys (latchBytes (seqStep t).dout)) := hplain
    _ = packBytes (latchBytes s.din) := by
      rw [hcipher, hparams, hkeys, latchBytes_packBytes, rc6Decrypt_rc6Encrypt]
    _ = s.din := packBytes_latchBytes s.din

end Sys2Proof.Machine
end

