-- ==== Sys2Proof/Proofs/HostModes.lean ====
section
/-! PROOF. The chaining modes as functions of the block operations (spec/43_host_usage.md R162 to R165): the counter block in
registers, CBC decryption block by block, and decryption inverse to encryption. The table of R162 is stated a second time,
as what a host does with one block (`blockPlan`); the two are tied together here, row by row. -/

namespace Sys2Proof.Machine

/-! The counter block in registers. -/

/-- BE32, packed in a register, is the word's four bytes in the other order (spec/43_host_usage.md R164). -/
theorem registerOfBytes_be32 (i : Nat) :
    registerOfBytes (be32 i)[0] (be32 i)[1] (be32 i)[2] (be32 i)[3] =
      registerOfBytes (registerByte (BitVec.ofNat 32 i) 3) (registerByte (BitVec.ofNat 32 i) 2)
        (registerByte (BitVec.ofNat 32 i) 1) (registerByte (BitVec.ofNat 32 i) 0) := rfl

/-- A register as a number: its bytes, each shifted to its place (spec/20_memory.md R53). -/
theorem registerOfBytes_toNat (b0 b1 b2 b3 : Byte) :
    (registerOfBytes b0 b1 b2 b3).toNat = b3.toNat <<< 24 ||| b2.toNat <<< 16 ||| b1.toNat <<< 8 ||| b0.toNat := by
  show (b3 ++ b2 ++ b1 ++ b0 : BitVec (8 + 8 + 8 + 8)).toNat = _
  simp only [BitVec.toNat_append, Nat.shiftLeft_or_distrib, ← Nat.shiftLeft_add]

/-- A byte of a register as a number (spec/20_memory.md R53). -/
theorem registerByte_ofNat_toNat {i : Nat} (hi : i < 2 ^ 32) (n : Nat) :
    (registerByte (BitVec.ofNat 32 i) n).toNat = i >>> (8 * n) &&& 0xFF := by
  rw [registerByte, BitVec.extractLsb'_toNat, BitVec.toNat_ofNat, Nat.mod_eq_of_lt hi]
  exact (Nat.and_two_pow_sub_one_eq_mod _ 8).symm

/-- BE32, packed in a register, is the word that R164 gives for DIN3; an index below 2^32 has no bits above its top byte. -/
theorem registerOfBytes_be32_eq_counterDin3 {i : Nat} (hi : i < 2 ^ 32) :
    registerOfBytes (be32 i)[0] (be32 i)[1] (be32 i)[2] (be32 i)[3] = counterDin3 i := by
  have htop : i >>> 24 &&& 0xFF = i >>> 24 := by
    rw [Nat.and_two_pow_sub_one_eq_mod _ 8, Nat.shiftRight_eq_div_pow]
    exact Nat.mod_eq_of_lt (by omega)
  rw [registerOfBytes_be32, ← BitVec.setWidth_eq (registerOfBytes _ _ _ _), ← BitVec.ofNat_toNat, registerOfBytes_toNat]
  simp only [registerByte_ofNat_toNat hi, Nat.reduceMul, htop]
  rfl

/-- Settles O54: the IV's bytes fill three registers and BE32 the fourth. -/
theorem counterBlockInDin : Obligations.CounterBlockInDin := by
  intro iv i hi
  simp [packBytes, counterBlock, registerOfBytes_be32_eq_counterDin3 hi]

/-! Exclusive-or of blocks. -/

@[simp] theorem xorBlock_getElem (x y : Block) (i : Nat) (hi : i < 16) : (xorBlock x y)[i] = x[i] ^^^ y[i] := by
  simp [xorBlock]

/-- A block put in twice falls out. -/
@[simp] theorem xorBlock_xorBlock_cancel_right (x y : Block) : xorBlock (xorBlock x y) y = x :=
  Vector.ext fun i hi => by simp

theorem xorBlock_right_comm (x y z : Block) : xorBlock (xorBlock x y) z = xorBlock (xorBlock x z) y :=
  Vector.ext fun i hi => by simp [BitVec.xor_assoc, BitVec.xor_comm z[i]]

/-! CBC decryption. -/

/-- CBC decryption pairs each block of the input with the one before it, the start value for the first: it carries nothing
from one output block to the next (spec/43_host_usage.md R163). -/
theorem cbcDecrypt_eq_zipWith (c : BlockOps) (prev : Block) (cs : List Block) :
    cbcDecrypt c prev cs = List.zipWith (fun y before => xorBlock (c.d y) before) cs (prev :: cs) := by
  induction cs generalizing prev with
  | nil => rfl
  | cons y ys ih => rw [cbcDecrypt, ih, List.zipWith_cons_cons]

/-- Settles O56: the block before block `i`, in the list that starts with the IV. -/
theorem cbcDecryptIsBlockwise : Obligations.CbcDecryptIsBlockwise := by
  intro c iv cs i h
  have hbefore : (iv :: cs)[i]? = some (if i = 0 then iv else cs.getD (i - 1) iv) := by
    cases i with
    | zero => rfl
    | succ j =>
      have hj : j < cs.length := Nat.lt_of_succ_lt h
      simp [hj]
  rw [cbcDecrypt_eq_zipWith, List.getElem?_zipWith, List.getElem?_eq_getElem h, hbefore]

/-! The table of R162 as what a host does with one block. -/

/-- The transform of a planned command: D for DECRYPT, and E for ENCRYPT, the only other one that a plan issues
(spec/43_host_usage.md R162). -/
def BlockOps.run (c : BlockOps) : Instr → Block → Block
  | .decrypt _ => c.d
  | _ => c.e

/-- What the core gives for a planned block. -/
def BlockPlan.result (plan : BlockPlan) (c : BlockOps) : Block := c.run plan.command plan.input

/-- A mode's row of R162 from block `i` on, with what it carries made explicit. -/
def modeRow (d : Direction) (m : ChainMode) (c : BlockOps) (iv : Block) (k : Carry) (i : Nat)
    (xs : List Block) : List Block :=
  match d, m with
  | .encrypt, .ecb => ecbEncrypt c xs
  | .encrypt, .cbc => cbcEncrypt c k.c xs
  | .encrypt, .pcbc => pcbcEncrypt c k.p k.c xs
  | .encrypt, .cfb => cfbEncrypt c k.c xs
  | .decrypt, .ecb => ecbDecrypt c xs
  | .decrypt, .cbc => cbcDecrypt c k.c xs
  | .decrypt, .pcbc => pcbcDecrypt c k.p k.c xs
  | .decrypt, .cfb => cfbDecrypt c k.c xs
  | _, .ofb => ofbApply c k.c xs
  | _, .ctr => keystreamApply c (counterBlock iv) i xs
  | _, .randomDelta => keystreamApply c (Config.randomDelta iv) i xs

section

variable (d : Direction) (m : ChainMode) (c : BlockOps) (iv : Block)

/-- A mode's formulas are its row from the start carry on (spec/43_host_usage.md R162). -/
theorem modeEncrypt_eq_modeRow (ps : List Block) :
    modeEncrypt m c iv ps =
      if modeAllows m ps.length then some (modeRow .encrypt m c iv (startCarry m iv) 0 ps) else none := by
  cases m <;> rfl

theorem modeDecrypt_eq_modeRow (cs : List Block) :
    modeDecrypt m c iv cs =
      if modeAllows m cs.length then some (modeRow .decrypt m c iv (startCarry m iv) 0 cs) else none := by
  cases m <;> rfl

variable (k : Carry) (i : Nat)

theorem modeRow_nil : modeRow d m c iv k i [] = [] := by
  cases d <;> cases m <;> rfl

/-- A row goes on as the plan of its first block says (spec/43_host_usage.md R162). -/
theorem modeRow_cons (x : Block) (xs : List Block) :
    modeRow d m c iv k i (x :: xs) =
      (blockPlan d m iv k i x).output ((blockPlan d m iv k i x).result c) ::
        modeRow d m c iv ((blockPlan d m iv k i x).carry ((blockPlan d m iv k i x).result c)) (i + 1) xs := by
  cases d <;> cases m <;> rfl

theorem modeRow_length (xs : List Block) : (modeRow d m c iv k i xs).length = xs.length := by
  induction xs generalizing k i with
  | nil => rw [modeRow_nil]
  | cons x xs ih => rw [modeRow_cons, List.length_cons, List.length_cons, ih]

variable {c}

/-- Decrypting the block that encryption puts out gives the plaintext block back and carries on the same, so the next block
meets the same situation (spec/43_host_usage.md R162). -/
theorem decryptPlan_undoes_encryptPlan (hinv : ∀ x, c.d (c.e x) = x) (x : Block) :
    let enc := encryptPlan m iv k i x
    let dec := decryptPlan m iv k i (enc.output (enc.result c))
    dec.output (dec.result c) = x ∧ dec.carry (dec.result c) = enc.carry (enc.result c) := by
  cases m with
  | ecb => exact ⟨hinv x, rfl⟩
  | cbc =>
    have hx : xorBlock (c.d (c.e (xorBlock x k.c))) k.c = x := by rw [hinv, xorBlock_xorBlock_cancel_right]
    exact ⟨hx, congrArg (Carry.mk · _) hx⟩
  | pcbc =>
    have hx : xorBlock (xorBlock (c.d (c.e (xorBlock (xorBlock x k.p) k.c))) k.p) k.c = x := by
      rw [hinv, xorBlock_right_comm, xorBlock_xorBlock_cancel_right, xorBlock_xorBlock_cancel_right]
    exact ⟨hx, congrArg (Carry.mk · _) hx⟩
  | cfb =>
    have hx := xorBlock_xorBlock_cancel_right x (c.e k.c)
    exact ⟨hx, congrArg (Carry.mk · _) hx⟩
  | ofb =>
    have hx := xorBlock_xorBlock_cancel_right x (c.e k.c)
    exact ⟨hx, congrArg (Carry.mk · _) hx⟩
  | ctr => exact ⟨xorBlock_xorBlock_cancel_right x _, rfl⟩
  | randomDelta => exact ⟨xorBlock_xorBlock_cancel_right x _, rfl⟩

/-- Block by block, the decryption row undoes the encryption row. -/
theorem modeRow_decrypt_encrypt (hinv : ∀ x, c.d (c.e x) = x) (xs : List Block) :
    modeRow .decrypt m c iv k i (modeRow .encrypt m c iv k i xs) = xs := by
  induction xs generalizing k i with
  | nil => rw [modeRow_nil, modeRow_nil]
  | cons x xs ih =>
    obtain ⟨hout, hcarry⟩ := decryptPlan_undoes_encryptPlan m iv k i hinv x
    rw [modeRow_cons, modeRow_cons]
    simp only [blockPlan] at hout hcarry ⊢
    rw [hout, hcarry, ih]

end

/-- Settles O55: both are the mode's row, which keeps the number of blocks. -/
theorem chainingModesInvert : Obligations.ChainingModesInvert := by
  intro m c iv ps cs hinv henc
  rw [modeEncrypt_eq_modeRow] at henc
  split at henc
  case isTrue hallows =>
    obtain rfl := Option.some.inj henc
    rw [modeDecrypt_eq_modeRow, modeRow_length, if_pos hallows, modeRow_decrypt_encrypt m iv _ _ hinv]
  case isFalse => cases henc

end Sys2Proof.Machine
end

