-- ==== Sys2Proof/Proofs/HostCalls.lean ====
section
/-! PROOF. A mode's call made on the core, and how a host reports errors (spec/43_host_usage.md R162, R171, R172). One block
on an idle core a master has to itself is said first; a call is then a run of such blocks. -/

namespace Sys2Proof.Machine

/-! Errors as a host reports them. -/

/-- ERR as a CHECK shows it (spec/30_encoding.md R77). -/
@[simp] theorem checkErr_word (st : Status) : checkErr st.word = st.err := st.word_getLsbD 2

/-- The code as a CHECK shows it (spec/30_encoding.md R77). -/
@[simp] theorem checkCode_word (st : Status) : checkCode st.word = st.errcode := by
  obtain ⟨-, -, -, -, hcode, -⟩ := statusBits st
  exact hcode

/-- A CHECK with ERR = 1 shows the error that its code names (spec/43_host_usage.md R172). -/
theorem checkFailure_word {st : Status} {bits : BitVec 4} {e : HostError} (code : ErrCode)
    (hbits : ErrCode.ofBits bits = some code) (he : hostError code = some e) (herr : st.err = true)
    (hcode : st.errcode = bits) : checkFailure st.word = some (.error e) := by
  simp [checkFailure, herr, hcode, hbits, he]

/-- Settles O60, code by code. -/
theorem hostErrorsAreTyped : Obligations.HostErrorsAreTyped := by
  intro st addr
  exact ⟨fun herr => (checkFailure_eq_none_iff _).2 ((checkErr_word st).trans herr),
    checkFailure_word .configError rfl rfl, checkFailure_word .invalidInput rfl rfl, checkFailure_word .noKey rfl rfl,
    checkFailure_word .illegalCmd rfl rfl, checkFailure_word .busyViolation rfl rfl, rfl⟩

/-! A block command on an idle core. -/

/-- The commands that a mode issues (spec/43_host_usage.md R162). -/
def IsBlockCommand (i : Instr) : Prop := i = .encrypt 16 ∨ i = .decrypt 16

theorem blockPlan_command (d : Direction) (m : ChainMode) (iv : Block) (k : Carry) (i : Nat) (x : Block) :
    IsBlockCommand (blockPlan d m iv k i x).command := by
  cases d with
  | encrypt => cases m <;> exact .inl rfl
  | decrypt =>
    cases m with
    | ecb => exact .inr rfl
    | cbc => exact .inr rfl
    | pcbc => exact .inr rfl
    | cfb => exact .inl rfl
    | ofb => exact .inl rfl
    | ctr => exact .inl rfl
    | randomDelta => exact .inl rfl

/-- An idle core with these round keys under this word order: what one block command leaves for the next. -/
structure KeyedIdle (o : WordOrder) (keys : RoundKeys) (s : State) : Prop where
  busy : s.status.busy = false
  phase : s.phase = .idle
  keyValid : s.status.keyValid = true
  wordOrder : s.params.wordOrder = o
  roundKeys : s.roundKeys = keys

/-- What the bus has answered is not the core's state. -/
theorem KeyedIdle.withReplies {o : WordOrder} {keys : RoundKeys} {s : State} (h : KeyedIdle o keys s) (rs : List Reply) :
    KeyedIdle o keys (s.withReplies rs) := ⟨h.busy, h.phase, h.keyValid, h.wordOrder, h.roundKeys⟩

/-- Nor is a block in DIN, before a command reads it. -/
theorem KeyedIdle.withDin {o : WordOrder} {keys : RoundKeys} {s : State} (h : KeyedIdle o keys s) (d : Quad) :
    KeyedIdle o keys (s.withDin d) := ⟨h.busy, h.phase, h.keyValid, h.wordOrder, h.roundKeys⟩

/-- On a keyed core a block command is accepted, and its completion delivers the transform without an error and leaves the
core as it was (spec/42_block_cipher.md R140, R150, spec/40_control.md R97). -/
theorem blockCommand_completes {o : WordOrder} {keys : RoundKeys} {s : State} {i : Instr} (hs : KeyedIdle o keys s)
    (hi : IsBlockCommand i) :
    ∃ t, exec i s = .next t ∧ (t.status.busy = true ↔ t.phase ≠ .idle) ∧ KeyedIdle o keys (seqStep t) ∧
      (seqStep t).status.err = false ∧ (seqStep t).dout = packBytes ((coreOps o keys).run i (latchBytes s.din)) := by
  obtain ⟨hb, hp, hk, rfl, rfl⟩ := hs
  rcases hi with rfl | rfl
  · refine ⟨_, encryptStarts s hb hk, by simp, ?_⟩
    rw [seqStep_of_enc rfl, completeEncrypt_eq]
    exact ⟨⟨rfl, rfl, hk, rfl, rfl⟩, rfl, rfl⟩
  · refine ⟨_, decryptStarts s hb hk, by simp, ?_⟩
    rw [seqStep_of_dec rfl, completeDecrypt_eq]
    exact ⟨⟨rfl, rfl, hk, rfl, rfl⟩, rfl, rfl⟩

/-- Without a key a block command ends at its acceptance, with NO_KEY (spec/42_block_cipher.md R143, R152). -/
theorem blockCommand_without_key {s : State} {i : Instr} (hb : s.status.busy = false) (hp : s.phase = .idle)
    (hk : s.status.keyValid = false) (hi : IsBlockCommand i) :
    ∃ t, exec i s = .next t ∧ t.status.busy = false ∧ t.phase = .idle ∧ t.status.err = true ∧ t.status.errcode = 3 := by
  rcases hi with rfl | rfl
  · exact ⟨_, encryptWithoutKey s hb hk, hb, hp, rfl, rfl⟩
  · exact ⟨_, decryptRefusals 16 s hb (.inr hk), hb, hp, rfl, rfl⟩

/-! One block of a master that has the bus to itself. -/

/-- A command's script ends after the command's completion, be it at the acceptance or a step of SEQ
(spec/30_encoding.md R76, R77; log 3). -/
theorem run_commandScript {m : Nat} {i : Instr} {s t : State} (hexec : exec i (reply m .written s) = .next t)
    (hbusy : t.status.busy = true ↔ t.phase ≠ .idle) (vs : List (Nat × Word)) (n : Nat) :
    ∃ rs k, runScript m (commandScript i) (aloneSession s vs n) = aloneSession ((seqStep t).withReplies rs) vs k := by
  have hissue : issue (encode i) (startOf i) (reply m .written s) = t :=
    Host.Outcome.next.inj ((exec_eq_issue i _).symm.trans hexec)
  rw [commandScript, runScript, run_wr_command m i (decode_encode i), hissue]
  by_cases hp : t.phase = .idle
  · have hb : t.status.busy = false := by simpa [hp] using hbusy
    rw [run_wait_of_not_busy hb hp, seqStep_of_idle hp]
    exact ⟨_, _, rfl⟩
  · obtain ⟨rs, hwait⟩ := run_wait_of_busy (hbusy.2 hp) hp m vs (n - 1)
    exact ⟨rs, 0, hwait⟩

/-- A call after the per-block protocol up to its CHECK: what `coreBlock` does before it reads the result
(spec/70_reset_and_hazards.md R205). -/
def checkedBlock (m : Nat) (i : Instr) (x : Block) (c : Call) : Call :=
  checkedScript m
    (blockScript i (.imm (packBytes x)[0]) (.imm (packBytes x)[1]) (.imm (packBytes x)[2]) (.imm (packBytes x)[3]) 0) c

/-- A block whose CHECK shows an error is not read (spec/43_host_usage.md R171). -/
theorem coreBlock_of_failed {m : Nat} {i : Instr} {x : Block} {c : Call} (h : callFailure (checkedBlock m i x c) ≠ none) :
    coreBlock m i x c = (checkedBlock m i x c, none) := if_pos (Option.isSome_iff_ne_none.2 h)

theorem coreBlock_of_clear {m : Nat} {i : Instr} {x : Block} {c : Call} (h : callFailure (checkedBlock m i x c) = none) :
    coreBlock m i x c = readResult m (checkedBlock m i x c) := if_neg (Option.not_isSome_iff_eq_none.2 h)

/-- The block is in DIN when the command is issued, and the CHECK reads STATUS after the command's completion
(spec/70_reset_and_hazards.md R205). -/
theorem checkedBlock_alone {s : State} {vs : List (Nat × Word)} {n : Nat} {c : Call} (hc : c.session = aloneSession s vs n)
    (m : Nat) (i : Instr) (x : Block) :
    ∃ rs, ∀ t, exec i ((s.withDin (packBytes x)).withReplies rs) = .next t → (t.status.busy = true ↔ t.phase ≠ .idle) →
      ∃ rs' vs' k, checkedBlock m i x c = { c with
        session := aloneSession ((seqStep t).withReplies rs') vs' k, checks := (seqStep t).status.word :: c.checks } := by
  obtain ⟨rs, hload⟩ := run_ldBlk m (packBytes x) s vs n
  refine ⟨⟨m, .written⟩ :: rs, fun t hexec hbusy => ?_⟩
  obtain ⟨rs', k, hcommand⟩ :=
    run_commandScript (s := (s.withDin (packBytes x)).withReplies rs) hexec hbusy vs (n - 4)
  refine ⟨⟨m, .data (seqStep t).status.word⟩ :: rs', (0, (seqStep t).status.word) :: vs, k - 1, checkedScript_of_run ?_⟩
  rw [blockScript, runScript_append, runScript_append, hc, hload, hcommand, run_hostCheck]
  rfl

/-! A call of a master that has the bus to itself. -/

/-- A call of such a master on this core in which nothing has gone wrong. -/
structure ClearCall (s : State) (c : Call) : Prop where
  session : ∃ vs n, c.session = aloneSession s vs n
  checks : ∀ hs ∈ c.checks, checkErr hs = false

theorem ClearCall.callFailure {s : State} {c : Call} (h : ClearCall s c) : callFailure c = none := by
  obtain ⟨⟨vs, n, hσ⟩, hchecks⟩ := h
  refine (callFailure_eq_none_iff c).2 ⟨by rw [hσ, aloneSession_halt], fun hs hmem => ?_⟩
  exact (checkFailure_eq_none_iff hs).2 (hchecks hs hmem)

section

variable {o : WordOrder} {keys : RoundKeys} {s : State} {c : Call} (hs : KeyedIdle o keys s) (hc : ClearCall s c)

include hs hc

/-- On a keyed core the CHECK of a block is clear, and DOUT holds the block's transform (spec/43_host_usage.md R162). -/
theorem checkedBlock_keyed {i : Instr} (hi : IsBlockCommand i) (m : Nat) (x : Block) :
    ∃ u, KeyedIdle o keys u ∧ u.dout = packBytes ((coreOps o keys).run i x) ∧ ClearCall u (checkedBlock m i x c) ∧
      (checkedBlock m i x c).out = c.out := by
  obtain ⟨⟨vs, n, hσ⟩, hchecks⟩ := hc
  obtain ⟨rs, hscript⟩ := checkedBlock_alone hσ m i x
  obtain ⟨t, hexec, hbusy, hdone, herr, hdout⟩ := blockCommand_completes ((hs.withDin (packBytes x)).withReplies rs) hi
  obtain ⟨rs', vs', k, hblock⟩ := hscript t hexec hbusy
  rw [State.withReplies_din, State.withDin_din, latchBytes_packBytes] at hdout
  rw [hblock]
  exact ⟨_, hdone.withReplies rs', hdout,
    ⟨⟨vs', k, rfl⟩, List.forall_mem_cons.2 ⟨(checkErr_word _).trans herr, hchecks⟩⟩, rfl⟩

/-- A block gets its transform, and leaves the call and the core for the next one as they were for it
(spec/43_host_usage.md R162). -/
theorem coreBlock_keyed {i : Instr} (hi : IsBlockCommand i) (m : Nat) (x : Block) :
    ∃ u c', coreBlock m i x c = (c', some ((coreOps o keys).run i x)) ∧ KeyedIdle o keys u ∧ ClearCall u c' ∧
      c'.out = c.out := by
  obtain ⟨u, hu, hdout, hclear, hout⟩ := checkedBlock_keyed hs hc hi m x
  rw [coreBlock_of_clear hclear.callFailure]
  generalize checkedBlock m i x c = c1 at hclear hout
  obtain ⟨σ, checks, out⟩ := c1
  obtain ⟨⟨vs, n, rfl⟩, hchecks⟩ := hclear
  obtain ⟨rs, hread⟩ := readResult_of_not_busy hu.busy m vs n checks out
  rw [hread, hdout, latchBytes_packBytes]
  exact ⟨_, _, rfl, hu.withReplies rs, ⟨⟨_, _, rfl⟩, hchecks⟩, hout⟩

/-- A call puts out what its mode's row gives for the blocks still to come, after what it has put out already
(spec/43_host_usage.md R162). -/
theorem callResult_runBlocks_keyed (m : Nat) (d : Direction) (mode : ChainMode) (iv : Block) (k : Carry) (i : Nat)
    (xs : List Block) :
    callResult (runBlocks m d mode iv k i xs c) = .ok (c.out.reverse ++ modeRow d mode (coreOps o keys) iv k i xs) := by
  induction xs generalizing k i c s with
  | nil => rw [runBlocks_nil, modeRow_nil, callResult, hc.callFailure, List.append_nil]
  | cons x xs ih =>
    obtain ⟨u, c', hblock, hu, hclear, hout⟩ :=
      coreBlock_keyed hs hc (blockPlan_command d mode iv k i x) m (blockPlan d mode iv k i x).input
    have hnext (y : Block) : ClearCall u { c' with out := y :: c'.out } := ⟨hclear.session, hclear.checks⟩
    rw [runBlocks_cons, hblock, afterBlock_some, ih hu (hnext _), hout, modeRow_cons, List.reverse_cons, List.append_assoc]
    rfl

end

theorem ClearCall.begin (s : State) (vs : List (Nat × Word)) (n : Nat) : ClearCall s (beginCall (aloneSession s vs n)) :=
  ⟨⟨vs, n, rfl⟩, by simp [beginCall]⟩

/-- A call on a keyed core is its mode's row on the core's transforms, unless it is over the limit of R165. -/
theorem modeCall_keyed {o : WordOrder} {keys : RoundKeys} {s : State} (hs : KeyedIdle o keys s) (d : Direction)
    (mode : ChainMode) (iv : Block) (blocks : List Block) (vs : List (Nat × Word)) (m n : Nat) :
    (modeCall m d mode iv blocks (aloneSession s vs n)).2 =
      if modeAllows mode blocks.length then .ok (modeRow d mode (coreOps o keys) iv (startCarry mode iv) 0 blocks)
      else .error (.refused (.counterLimit blocks.length)) := by
  rw [modeCall]
  split
  · exact callResult_runBlocks_keyed hs (.begin s vs n) m d mode iv _ 0 blocks
  · rfl

/-- Settles O58: both sides are the mode's row. -/
theorem modeCallRunsOnTheCore : Obligations.ModeCallRunsOnTheCore := by
  intro d mode iv blocks s vs m n hb hp hk
  rw [modeCall_keyed ⟨hb, hp, hk, rfl, rfl⟩]
  cases d with
  | encrypt => rw [modeEncrypt_eq_modeRow]; split <;> rfl
  | decrypt => rw [modeDecrypt_eq_modeRow]; split <;> rfl

/-- Without a key the CHECK of the first block shows NO_KEY, so no block is read (spec/42_block_cipher.md R143, R152). -/
theorem coreBlock_without_key {s : State} {vs : List (Nat × Word)} {n : Nat} (hb : s.status.busy = false)
    (hp : s.phase = .idle) (hk : s.status.keyValid = false) {i : Instr} (hi : IsBlockCommand i) (m : Nat) (x : Block) :
    ∃ c, coreBlock m i x (beginCall (aloneSession s vs n)) = (c, none) ∧
      callFailure c = some (.error (.operationFailed .noKey)) := by
  obtain ⟨rs, hscript⟩ := checkedBlock_alone (c := beginCall (aloneSession s vs n)) rfl m i x
  obtain ⟨t, hexec, hidle, hphase, herr, hcode⟩ :=
    blockCommand_without_key (s := (s.withDin (packBytes x)).withReplies rs) hb hp hk hi
  obtain ⟨rs', vs', k, hblock⟩ := hscript t hexec (by simp [hidle, hphase])
  have hfail : callFailure (checkedBlock m i x (beginCall (aloneSession s vs n))) =
      some (.error (.operationFailed .noKey)) := by
    have hcheck : checkFailure t.status.word = some (.error (.operationFailed .noKey)) :=
      checkFailure_word .noKey rfl rfl herr hcode
    rw [hblock, seqStep_of_idle hphase]
    simp [callFailure, hcheck]
  exact ⟨_, coreBlock_of_failed (by simp [hfail]), hfail⟩

/-! A call whatever other agents do. -/

/-- A script that has not halted had not halted before. -/
theorem halt_of_runScript {m : Nat} {is : List HostInstr} {σ : Session} (h : (runScript m is σ).halt = none) :
    σ.halt = none := by
  cases hσ : σ.halt with
  | none => rfl
  | some w => rw [runScript_of_halted (by simp [hσ]), hσ] at h; cases h

/-- An RD that did not halt gave its variable a value, and the others keep theirs (spec/30_encoding.md R76). -/
theorem run_rd_var_isSome {m off x y : Nat} {σ : Session} (h : ((HostInstr.rd off x).run m σ).halt = none)
    (hy : y = x ∨ (σ.var? y).isSome) : (((HostInstr.rd off x).run m σ).var? y).isSome := by
  obtain ⟨v, hvars⟩ := run_rd_assigns h
  simp only [Session.var?, Option.isSome_map, List.find?_isSome, beq_iff_eq] at hy ⊢
  rw [hvars, read_vars]
  rcases hy with rfl | ⟨p, hmem, hp⟩
  · exact ⟨_, List.mem_cons_self, rfl⟩
  · exact ⟨p, List.mem_cons_of_mem _ hmem, hp⟩

/-- RDs that did not halt gave all their variables a value (spec/30_encoding.md R76). -/
theorem runScript_rds_var_isSome {m y : Nat} {reads : List (Nat × Nat)} {σ : Session}
    (h : (runScript m (reads.map fun r => .rd r.1 r.2) σ).halt = none)
    (hy : y ∈ reads.map Prod.snd ∨ (σ.var? y).isSome) :
    ((runScript m (reads.map fun r => .rd r.1 r.2) σ).var? y).isSome := by
  induction reads generalizing σ with
  | nil => simpa [runScript] using hy
  | cons r reads ih =>
    have hhead : ((HostInstr.rd r.1 r.2).run m σ).halt = none := halt_of_runScript h
    refine ih h ?_
    rw [List.map_cons, List.mem_cons, or_assoc, or_left_comm] at hy
    exact hy.imp_right (run_rd_var_isSome hhead)

theorem checkedScript_out (m : Nat) (script : List HostInstr) (c : Call) : (checkedScript m script c).out = c.out := by
  simp only [checkedScript]
  split <;> rfl

/-- A checked script that ends with a CHECK and has not halted recorded that CHECK (spec/43_host_usage.md R171). -/
theorem checkedScript_checks_length {m : Nat} {script : List HostInstr} {c : Call}
    (h : (checkedScript m (script ++ hostCheck 0) c).session.halt = none) :
    (checkedScript m (script ++ hostCheck 0) c).checks.length = c.checks.length + 1 := by
  have hhalt : (runScript m (script ++ hostCheck 0) c.session).halt = none := by
    simp only [checkedScript] at h
    split at h <;> exact h
  have hvar : ((runScript m (script ++ hostCheck 0) c.session).var? 0).isSome := by
    rw [runScript_append] at hhalt ⊢
    exact runScript_rds_var_isSome (reads := [(Reg.offset .status, 0)]) hhalt (.inl (by decide))
  obtain ⟨hs, hhs⟩ := Option.isSome_iff_exists.1 hvar
  simp only [checkedScript, hhalt, hhs, List.length_cons]

/-- RDOUT records no CHECK and puts out nothing of itself. -/
theorem readResult_frame (m : Nat) (c : Call) : (readResult m c).1.checks = c.checks ∧ (readResult m c).1.out = c.out := by
  simp only [readResult]
  split <;> exact ⟨rfl, rfl⟩

/-- An RDOUT that answers no block has halted. -/
theorem readResult_halt {m : Nat} {c : Call} (h : (readResult m c).2 = none) :
    (readResult m c).1.session.halt ≠ none := by
  intro hhalt
  have hend : (runScript m (rdOut 1 2 3 4) c.session).halt = none := by
    simp only [readResult] at hhalt
    split at hhalt <;> exact hhalt
  have hvar (y : Nat) (hy : y ∈ [1, 2, 3, 4]) : ∃ v, (runScript m (rdOut 1 2 3 4) c.session).var? y = some v :=
    Option.isSome_iff_exists.1 (runScript_rds_var_isSome
      (reads := [(Reg.offset (.dout 0), 1), (Reg.offset (.dout 1), 2), (Reg.offset (.dout 2), 3),
        (Reg.offset (.dout 3), 4)])
      hend (.inl hy))
  obtain ⟨w0, h0⟩ := hvar 1 (by decide)
  obtain ⟨w1, h1⟩ := hvar 2 (by decide)
  obtain ⟨w2, h2⟩ := hvar 3 (by decide)
  obtain ⟨w3, h3⟩ := hvar 4 (by decide)
  simp [readResult, hend, h0, h1, h2, h3] at h

/-- What a block of a call does to its record: it puts out nothing of itself, and either it answers a block and has recorded
one more CHECK, or the call has failed (spec/43_host_usage.md R171). -/
theorem coreBlock_cases (m : Nat) (i : Instr) (x : Block) (c : Call) :
    (∃ c' y, coreBlock m i x c = (c', some y) ∧ c'.checks.length = c.checks.length + 1 ∧ c'.out = c.out) ∨
    (∃ c', coreBlock m i x c = (c', none) ∧ callFailure c' ≠ none) := by
  by_cases hfail : callFailure (checkedBlock m i x c) = none
  · have hlen : (checkedBlock m i x c).checks.length = c.checks.length + 1 :=
      checkedScript_checks_length ((callFailure_eq_none_iff _).1 hfail).1
    have hout : (checkedBlock m i x c).out = c.out := checkedScript_out m _ c
    have hframe := readResult_frame m (checkedBlock m i x c)
    have hhalt := @readResult_halt m (checkedBlock m i x c)
    rw [coreBlock_of_clear hfail]
    generalize readResult m (checkedBlock m i x c) = r at hframe hhalt
    obtain ⟨c', _ | y⟩ := r
    · exact .inr ⟨c', rfl, fun h => hhalt rfl ((callFailure_eq_none_iff c').1 h).1⟩
    · exact .inl ⟨c', y, rfl, hframe.1 ▸ hlen, hframe.2.trans hout⟩
  · exact .inr ⟨_, coreBlock_of_failed hfail, hfail⟩

/-- A call that has not failed has recorded one CHECK for each of its blocks, and put out as many. -/
theorem runBlocks_counts {m : Nat} {d : Direction} {mode : ChainMode} {iv : Block} {k : Carry} {i : Nat} {xs : List Block}
    {c : Call} (h : callFailure (runBlocks m d mode iv k i xs c) = none) :
    (runBlocks m d mode iv k i xs c).checks.length = c.checks.length + xs.length ∧
      (runBlocks m d mode iv k i xs c).out.length = c.out.length + xs.length := by
  induction xs generalizing k i c with
  | nil => exact ⟨rfl, rfl⟩
  | cons x xs ih =>
    rw [runBlocks_cons] at h ⊢
    obtain ⟨c', y, hblock, hchecks, hout⟩ | ⟨c', hblock, hfail⟩ :=
      coreBlock_cases m (blockPlan d mode iv k i x).command (blockPlan d mode iv k i x).input c
    · rw [hblock, afterBlock_some] at h ⊢
      obtain ⟨ihchecks, ihout⟩ := ih h
      rw [ihchecks, ihout, hchecks, List.length_cons, List.length_cons, hout]
      omega
    · rw [hblock, afterBlock_none] at h
      exact absurd h hfail

/-- The output of a call is kept exactly when nothing has gone wrong in it (spec/43_host_usage.md R171). -/
theorem callResult_eq_ok_iff {c : Call} {out : List Block} :
    callResult c = .ok out ↔ callFailure c = none ∧ out = c.out.reverse := by
  cases h : callFailure c with
  | none => simp [callResult, h, eq_comm]
  | some f => simp [callResult, h]

/-- Settles O59: a call keeps its output only if it has not failed, and then it has counted its blocks; without a key it
fails at its first block. -/
theorem callFailsWhole : Obligations.CallFailsWhole := by
  refine ⟨?kept, ?noKey⟩
  case kept =>
    intro m d mode iv blocks out σ c hcall
    rw [modeCall] at hcall
    split at hcall
    case isTrue =>
      obtain ⟨rfl, hresult⟩ := Prod.mk.inj hcall
      obtain ⟨hfail, rfl⟩ := callResult_eq_ok_iff.1 hresult
      obtain ⟨hchecks, hout⟩ := runBlocks_counts hfail
      obtain ⟨hhalt, hclear⟩ := (callFailure_eq_none_iff _).1 hfail
      refine ⟨by simpa [beginCall] using hchecks, fun hs hmem => ?_, hhalt, by simpa [beginCall] using hout⟩
      exact (checkFailure_eq_none_iff hs).1 (hclear hs hmem)
    case isFalse => cases hcall
  case noKey =>
    intro m n d mode iv blocks s vs hb hp hk hne hallows
    obtain ⟨x, xs, rfl⟩ := List.exists_cons_of_ne_nil hne
    obtain ⟨c, hblock, hfail⟩ := coreBlock_without_key (vs := vs) (n := n) hb hp hk
      (blockPlan_command d mode iv (startCarry mode iv) 0 x) m (blockPlan d mode iv (startCarry mode iv) 0 x).input
    rw [modeCall, if_pos hallows, runBlocks_cons, hblock, afterBlock_none]
    simp only [callResult, hfail, abortCall]

end Sys2Proof.Machine
end

