-- ==== Sys2Proof/Proofs/ErrorPriority.lean ====
section
/-! PROOF. The code that a CTRL write leaves, by the priority of the errors (spec/60_exceptions.md R185). -/

namespace Sys2Proof

/-- A word of which the mask leaves at most 3 selects a command (spec/30_encoding.md R73). -/
theorem exists_command_of_le {v : Word} (h : (v &&& 0xFFFF00FF).toNat ≤ 3) : ∃ i, decode v = .command i := by
  obtain ⟨hnop, hkey, henc, hdec, -⟩ := decodeFollowsOpcodeMap v
  have hmask : v &&& 0xFFFF00FF = 0 ∨ v &&& 0xFFFF00FF = 1 ∨ v &&& 0xFFFF00FF = 2 ∨ v &&& 0xFFFF00FF = 3 := by bv_omega
  obtain h0 | h1 | h2 | h3 := hmask
  · exact ⟨_, hnop h0⟩
  · exact ⟨_, hkey h1⟩
  · exact ⟨_, henc h2⟩
  · exact ⟨_, hdec h3⟩

/-- The CMD of a word that selects a command is the command's (spec/30_encoding.md R74). -/
theorem cmdField_of_decode {v : Word} {i : Instr} (h : decode v = .command i) : cmdField v = i.cmd := by
  rw [← encode_of_decode h]
  exact cmdField_commandWord i.len i.cmd

end Sys2Proof

namespace Sys2Proof.Machine

/-! ERRCODE after the checks of each command's own part of the acceptance. -/

/-- KEY_EXPAND checks LEN (spec/41_key_schedule.md R111, R112). -/
theorem startKeyExpand_errcode (len : BitVec 8) (s : State) :
    (startKeyExpand (operandLength len) s).status.errcode = if len ≠ 16 then 2 else s.status.errcode := by
  by_cases hlen : len = 16
  · rw [hlen, startKeyExpand_keyBytes, if_neg (not_not.2 rfl)]
  · rw [startKeyExpand_of_ne hlen, if_pos hlen]

/-- A block command checks LEN and then the key (spec/42_block_cipher.md R140, R142, R143, R150, R152). -/
theorem startBlock_errcode (p : Phase) (len : BitVec 8) (s : State) :
    (startBlock p (operandLength len) s).status.errcode =
      if len ≠ 16 then 1 else if s.status.keyValid = false then 3 else s.status.errcode := by
  by_cases hlen : len = 16
  · rw [hlen, if_neg (not_not.2 rfl)]
    cases hk : s.status.keyValid with
    | false => rw [startBlock_of_no_key p hk, if_pos rfl]
    | true => rw [startBlock_of_key p hk, if_neg (by decide)]
  · rw [startBlock_of_ne p hlen, if_pos hlen]

/-- The code an accepted command leaves: the common part of the acceptance clears it, so it is what the command's own checks
record (spec/60_exceptions.md R185). -/
theorem issue_errcode_of_idle (i : Instr) {s : State} (hb : s.status.busy = false) :
    (issue (encode i) (startOf i) s).status.errcode =
      if i.cmd = 0 then 0
      else if i.len ≠ 16 then (if i.cmd = 1 then 2 else 1)
      else if i.cmd ≠ 1 ∧ s.status.keyValid = false then 3
      else 0 := by
  rw [issue_of_idle hb]
  cases i with
  | nop len => rfl
  | keyExpand len => simp [startOf, startKeyExpand_errcode, beginAccept_eq, Instr.cmd, Instr.len]
  | encrypt len => simp [startOf, startBlock_errcode, beginAccept_eq, Instr.cmd, Instr.len]
  | decrypt len => simp [startOf, startBlock_errcode, beginAccept_eq, Instr.cmd, Instr.len]

/-- Settles O16, in the order of the checks: a busy core refuses any word, an idle one an illegal word, and a word that is
neither refused nor illegal is a command, whose own checks give the code. -/
theorem errorPriority : Obligations.ErrorPriority := by
  intro s m v rest he
  by_cases hb : s.status.busy = true
  · exact ⟨_, busyWriteRefused.1 s m v rest he hb, (if_pos hb).symm⟩
  have hidle : s.status.busy = false := Bool.eq_false_of_not_eq_true hb
  rw [if_neg hb]
  by_cases hmask : 3 < (v &&& 0xFFFF00FF).toNat
  · exact ⟨_, illegalWordRaisesIllegalCmd s m v rest he hidle hmask, (if_pos hmask).symm⟩
  obtain ⟨i, hd⟩ := exists_command_of_le (Nat.not_lt.1 hmask)
  have hcmd : v.extractLsb' 0 4 = i.cmd := cmdField_of_decode hd
  have hlen : v.extractLsb' 8 8 = i.len := (decode_eq_command_iff.1 hd).2
  rw [if_neg hmask, hcmd, hlen]
  exact ⟨_, (stepRunsDecodedCommand s m v rest i he hd).trans (exec_eq_issue i _), issue_errcode_of_idle i hidle⟩

end Sys2Proof.Machine
end

