-- ==== Sys2Proof/Proofs/BlockProtocol.lean ====
section
/-! PROOF. The per-block protocol of a host that polls, run on an idle, keyed core by one master alone
(spec/70_reset_and_hazards.md R205): write DIN, issue the command, wait, check, read DOUT. -/

namespace Sys2Proof.Machine

/-- A CHECK after a block command that a keyed core accepted reads DONE and KEY_VALID and nothing else: the acceptance
cleared ERR and ERRCODE, and the completion wrote neither (spec/40_control.md R90, R97). -/
theorem blockCommand_check {o : WordOrder} {keys : RoundKeys} {s t : State} {i : Instr} (hs : KeyedIdle o keys s)
    (hi : IsBlockCommand i) (hexec : exec i s = .next t) : (seqStep t).status.word = 0x0000000A := by
  have hstatus : (seqStep t).status =
      { busy := false, done := true, err := false, keyValid := s.status.keyValid, errcode := 0 } := by
    rcases hi with rfl | rfl
    · obtain rfl := Host.Outcome.next.inj ((encryptStarts s hs.busy hs.keyValid).symm.trans hexec)
      rw [seqStep_of_enc rfl, completeEncrypt_eq]
    · obtain rfl := Host.Outcome.next.inj ((decryptStarts s hs.busy hs.keyValid).symm.trans hexec)
      rw [seqStep_of_dec rfl, completeDecrypt_eq]
  rw [hstatus, hs.keyValid]
  rfl

section

variable {o : WordOrder} {keys : RoundKeys} {s : State} {i : Instr} (hs : KeyedIdle o keys s) (hi : IsBlockCommand i)

include hs hi

/-- The protocol up to its CHECK: the command has completed on the block that was written to DIN
(spec/70_reset_and_hazards.md R205). -/
theorem run_blockScript_keyed (m : Nat) (d : Quad) (h : Nat) (vs : List (Nat × Word)) (n : Nat) :
    ∃ u k, runScript m (blockScript i (.imm d[0]) (.imm d[1]) (.imm d[2]) (.imm d[3]) h) (aloneSession s vs n) =
        aloneSession u ((h, 0x0000000A) :: vs) k ∧
      u.status.busy = false ∧ u.dout = packBytes ((coreOps o keys).run i (latchBytes d)) := by
  obtain ⟨rs, hload⟩ := run_ldBlk m d s vs n
  have hloaded : KeyedIdle o keys (reply m .written ((s.withDin d).withReplies rs)) :=
    ((hs.withDin d).withReplies rs).withReplies _
  obtain ⟨t, hexec, hbusy, hdone, -, hdout⟩ := blockCommand_completes hloaded hi
  obtain ⟨rs', k, hcommand⟩ := run_commandScript hexec hbusy vs (n - 4)
  rw [blockScript, runScript_append, runScript_append, hload, hcommand, run_hostCheck, State.withReplies_status,
    blockCommand_check hloaded hi hexec]
  exact ⟨_, _, rfl, hdone.busy, hdout⟩

/-- The whole protocol ends without a halt, with the CHECK and the block's transform in the host's variables
(spec/20_memory.md R61, spec/70_reset_and_hazards.md R205). -/
theorem blockProtocol_reads (m n : Nat) (d : Quad) :
    let σ := runScript m (blockScript i (.imm d[0]) (.imm d[1]) (.imm d[2]) (.imm d[3]) 0 ++ rdOut 1 2 3 4)
      (aloneSession s [] n)
    let y := packBytes ((coreOps o keys).run i (latchBytes d))
    σ.halt = none ∧ σ.var? 0 = some 0x0000000A ∧
    σ.var? 1 = some y[0] ∧ σ.var? 2 = some y[1] ∧ σ.var? 3 = some y[2] ∧ σ.var? 4 = some y[3] := by
  obtain ⟨u, k, hcheck, hbusy, hdout⟩ := run_blockScript_keyed hs hi m d 0 [] n
  obtain ⟨rs, hread⟩ := run_rdOut hbusy m 1 2 3 4 [(0, 0x0000000A)] k
  rw [runScript_append, hcheck, hread, ← hdout]
  exact ⟨rfl, rfl, rfl, rfl, rfl, rfl⟩

end

/-- Settles O53: the protocol with ENCRYPT. -/
theorem pollingHostReadsCiphertext : Obligations.PollingHostReadsCiphertext := by
  intro s m n d0 d1 d2 d3 hb hp hk
  exact blockProtocol_reads ⟨hb, hp, hk, rfl, rfl⟩ (.inl rfl) m n #v[d0, d1, d2, d3]

/-- Settles O57: the protocol with DECRYPT. -/
theorem pollingHostReadsPlaintext : Obligations.PollingHostReadsPlaintext := by
  intro s m n d0 d1 d2 d3 hb hp hk
  exact blockProtocol_reads ⟨hb, hp, hk, rfl, rfl⟩ (.inr rfl) m n #v[d0, d1, d2, d3]

end Sys2Proof.Machine
end
